-- ==== Sys2Proof/Config.lean ====
section
/-! DEFINITION. The implementation parameters, each under its name in 00_scope.md R7, and the one free value of the
machine, the random byte (43_random.md R200). A width is a constant that the types of Word.lean and State are built
from; a parameter that a step reads is a field of the record `Config`, which State carries (assumption log 1). -/

namespace Sys2Proof

/-! ## The widths (R7) -/

/-- `NREG`: the number of general registers. -/
abbrev Config.nreg : Nat := 16
/-- `XLEN`: the width of a general register, in bits. -/
abbrev Config.xlen : Nat := 8
/-- `PCLEN`: the width of the program counter, in bits. -/
abbrev Config.pclen : Nat := 16
/-- `ILEN`: the length of an instruction, in bytes. -/
abbrev Config.ilen : Nat := 2
/-- `ILEN` in bits. -/
abbrev Config.ilenBits : Nat := 16
/-- `ADDRLEN`: the width of the jump address field, in bits. -/
abbrev Config.addrlen : Nat := 12
/-- `IMMLEN`: the width of the immediate field, in bits. -/
abbrev Config.immlen : Nat := 8

/-! ## The parameters a step reads (R7) -/

/-- `IMAGE_SIZE`, `FLAG_REG` and `RESET_PC`, with R7's values as defaults. State carries this record and no step
changes it; a statement holds for every value of it that its hypotheses allow. -/
structure Config where
  /-- `IMAGE_SIZE`, the capacity of the program image in bytes, 2048 in the source. -/
  imageSize : Nat := 2048
  /-- `FLAG_REG`, the index of the flags register (10_state.md R22). -/
  flagReg   : BitVec 4 := 0xF#4
  /-- `RESET_PC` (70_reset_and_hazards.md R261). -/
  resetPc   : BitVec Config.pclen := 0x0000#16
  deriving DecidableEq, Repr

/-- What R7 allows: 2 ≤ `IMAGE_SIZE` ≤ 65536, and its one value for each of the others. -/
def Config.wf (c : Config) : Bool :=
  decide (2 ≤ c.imageSize) && decide (c.imageSize ≤ 65536) && c.flagReg == 0xF#4 && c.resetPc == 0x0000#16

/-- The byte the random provider gives at its n-th draw once the bytes the host has offered are used up.
R200 puts no law on it, so it has no body: a FREE VALUE (assumption log 2). -/
opaque Config.rndByte : Nat → BitVec Config.xlen

end Sys2Proof
end

