-- ==== Sys2Proof/Word.lean ====
section
/-! DEFINITION. The bit-vector types the manual reads as words (00_scope.md R7, R9, R10). Every value is
unsigned (R10), so each is a plain `BitVec` of the width R7 gives. -/

namespace Sys2Proof

/-- A register value or a byte of the program image, `XLEN` bits. -/
abbrev Byte := BitVec Config.xlen

/-- The immediate field, `IMMLEN` bits (30_encoding.md R84). -/
abbrev Imm := BitVec Config.immlen

/-- An instruction word, `ILEN` bytes. -/
abbrev Word := BitVec Config.ilenBits

/-- A value of the program counter, `PCLEN` bits. -/
abbrev Pc := BitVec Config.pclen

/-- The jump address field, `ADDRLEN` bits. -/
abbrev Addr12 := BitVec Config.addrlen

/-- The number of a general register, the 4-bit X or Y field (10_state.md R20). -/
abbrev Reg := BitVec 4

end Sys2Proof
end

