-- ==== Sys2Proof/Syntax.lean ====
section
/-! DEFINITION. The instructions (30_encoding.md R90 and opcode_table.json), the operation identifiers (R94)
and the Operation Arguments record (R85). -/

namespace Sys2Proof

/-- The closed enumeration of operations: one case per instruction plus HALT_UNIMPL (R94). -/
inductive Op where
  | halt | jp | se | ldI | addI | ldR | orR | andR | xorR | addR | sub | shr | subn | shl | rnd | haltUnimpl
  deriving DecidableEq, Repr

/-- The Operation Arguments record the decoder produces (R85). -/
structure Args where
  addr : Addr12 := 0
  x    : Reg := 0
  y    : Reg := 0
  imm  : Imm := 0
  deriving DecidableEq, Repr

/-- A decoded instruction, with the fields its format gives it (R82). The two halting forms also keep the bits
that they ignore, so that every word can be rebuilt from its instruction (assumption log 6). -/
inductive Instr where
  /-- HALT, `0x0___` (40_control.md R121). `ignored` is bits 11:0, which nothing reads. -/
  | halt (ignored : BitVec 12)
  /-- JP addr, `0x1NNN` (R123). -/
  | jp (addr : Addr12)
  /-- SE Vx, byte, `0x3XKK` (R126). -/
  | se (x : Reg) (kk : Imm)
  /-- LD Vx, byte, `0x6XKK` (41_immediate.md R141). -/
  | ldI (x : Reg) (kk : Imm)
  /-- ADD Vx, byte, `0x7XKK` (R143). -/
  | addI (x : Reg) (kk : Imm)
  /-- LD Vx, Vy, `0x8XY0` (42_alu.md R160). -/
  | ldR (x y : Reg)
  /-- OR Vx, Vy, `0x8XY1` (R161). -/
  | orR (x y : Reg)
  /-- AND Vx, Vy, `0x8XY2` (R162). -/
  | andR (x y : Reg)
  /-- XOR Vx, Vy, `0x8XY3` (R163). -/
  | xorR (x y : Reg)
  /-- ADD Vx, Vy, `0x8XY4` (R164). -/
  | addR (x y : Reg)
  /-- SUB Vx, Vy, `0x8XY5` (R165). -/
  | sub (x y : Reg)
  /-- SHR Vx, `0x8XY6` (R166). Y is decoded and has no effect. -/
  | shr (x y : Reg)
  /-- SUBN Vx, Vy, `0x8XY7` (R167). -/
  | subn (x y : Reg)
  /-- SHL Vx, `0x8XYE` (R168). Y is decoded and has no effect. -/
  | shl (x y : Reg)
  /-- RND Vx, byte, `0xCXKK` (43_random.md R201). -/
  | rnd (x : Reg) (kk : Imm)
  /-- The fallback, every unimplemented word (30_encoding.md R92, 40_control.md R122). `word` is that word. All
  sixteen HALT_UNIMPL rows of the opcode table are this one operation (R94). -/
  | haltUnimpl (word : Word)
  deriving DecidableEq, Repr

/-- One row of spec/opcode_table.json: the words with `w &&& mask = pattern` stand for the operation. -/
structure OpcodeRow where
  op      : Op
  pattern : Word
  mask    : Word
  deriving DecidableEq, Repr

/-- Why a list of bytes holds no instruction. -/
inductive DecodeError where
  /-- Fewer than the two bytes of one instruction (R80). The step never meets it: R57 admits only whole words. -/
  | truncated
  deriving DecidableEq, Repr

end Sys2Proof
end

