-- ==== Sys2Proof/Decode.lean ====
section
/-! DEFINITION. The fields of a word (30_encoding.md R81), the total decoder (R94), the encoder written from the
same table (R90), and both over stored bytes (20_memory.md R53). -/

namespace Sys2Proof

/-! ## The fields of the word (R81) -/

/-- `P` = w[15:12], the primary selector. -/
def fieldP (w : Word) : BitVec 4 := w.extractLsb' 12 4
/-- `X` = w[11:8]. -/
def fieldX (w : Word) : Reg := w.extractLsb' 8 4
/-- `Y` = w[7:4]. -/
def fieldY (w : Word) : Reg := w.extractLsb' 4 4
/-- `N` = w[3:0], the secondary selector. -/
def fieldN (w : Word) : BitVec 4 := w.extractLsb' 0 4
/-- `KK` = w[7:0], the immediate. -/
def fieldKK (w : Word) : Imm := w.extractLsb' 0 8
/-- `NNN` = w[11:0], the address (R86). -/
def fieldNNN (w : Word) : Addr12 := w.extractLsb' 0 12

/-! ## Decoding (R94) -/

/-- The nine register-register operations, selected by `N`; any other secondary selector falls back (R93). -/
def decodeAlu (w : Word) : Instr :=
  match fieldN w with
  | 0x0#4 => .ldR  (fieldX w) (fieldY w)
  | 0x1#4 => .orR  (fieldX w) (fieldY w)
  | 0x2#4 => .andR (fieldX w) (fieldY w)
  | 0x3#4 => .xorR (fieldX w) (fieldY w)
  | 0x4#4 => .addR (fieldX w) (fieldY w)
  | 0x5#4 => .sub  (fieldX w) (fieldY w)
  | 0x6#4 => .shr  (fieldX w) (fieldY w)
  | 0x7#4 => .subn (fieldX w) (fieldY w)
  | 0xE#4 => .shl  (fieldX w) (fieldY w)
  | _     => .haltUnimpl w

/-- The decoder, "total over all 65536 possible 2-byte values" (R94). -/
def decode (w : Word) : Instr :=
  match fieldP w with
  | 0x0#4 => .halt (fieldNNN w)
  | 0x1#4 => .jp (fieldNNN w)
  | 0x3#4 => .se (fieldX w) (fieldKK w)
  | 0x6#4 => .ldI (fieldX w) (fieldKK w)
  | 0x7#4 => .addI (fieldX w) (fieldKK w)
  | 0x8#4 => decodeAlu w
  | 0xC#4 => .rnd (fieldX w) (fieldKK w)
  | _     => .haltUnimpl w

/-- The operation identifier of an instruction (R94). -/
def Instr.op : Instr → Op
  | .halt _ => .halt       | .jp _ => .jp         | .se _ _ => .se       | .ldI _ _ => .ldI
  | .addI _ _ => .addI     | .ldR _ _ => .ldR     | .orR _ _ => .orR     | .andR _ _ => .andR
  | .xorR _ _ => .xorR     | .addR _ _ => .addR   | .sub _ _ => .sub     | .shr _ _ => .shr
  | .subn _ _ => .subn     | .shl _ _ => .shl     | .rnd _ _ => .rnd     | .haltUnimpl _ => .haltUnimpl

/-- The Operation Arguments record of an instruction; unused fields are zero, and both halts carry nothing (R85). -/
def Instr.args : Instr → Args
  | .halt _ => {}
  | .jp a => { addr := a }
  | .se x kk | .ldI x kk | .addI x kk | .rnd x kk => { x := x, imm := kk }
  | .ldR x y | .orR x y | .andR x y | .xorR x y | .addR x y | .sub x y | .shr x y | .subn x y | .shl x y =>
      { x := x, y := y }
  | .haltUnimpl _ => {}

/-- R94's decoder as the manual writes it, from a word to an (operation, arguments) pair. -/
def decodePair (w : Word) : Op × Args := ((decode w).op, (decode w).args)

/-- The words of R92: nine primary selectors with any low bits, and primary selector 8 with one of seven
secondary selectors. -/
def isFallbackWord (w : Word) : Bool :=
  [0x2#4, 0x4#4, 0x5#4, 0x9#4, 0xA#4, 0xB#4, 0xD#4, 0xE#4, 0xF#4].contains (fieldP w) ||
  (fieldP w == 0x8#4 && [0x8#4, 0x9#4, 0xA#4, 0xB#4, 0xC#4, 0xD#4, 0xF#4].contains (fieldN w))

/-! ## The opcode table, row for row: (operation, match, mask) -/

/-- The rows of the fifteen implemented instructions (R90 rows 1 to 15). -/
def implementedRows : List OpcodeRow :=
  [⟨.halt, 0x0000#16, 0xF000#16⟩, ⟨.jp, 0x1000#16, 0xF000#16⟩, ⟨.se, 0x3000#16, 0xF000#16⟩, ⟨.ldI, 0x6000#16, 0xF000#16⟩,
   ⟨.addI, 0x7000#16, 0xF000#16⟩, ⟨.ldR, 0x8000#16, 0xF00F#16⟩, ⟨.orR, 0x8001#16, 0xF00F#16⟩, ⟨.andR, 0x8002#16, 0xF00F#16⟩,
   ⟨.xorR, 0x8003#16, 0xF00F#16⟩, ⟨.addR, 0x8004#16, 0xF00F#16⟩, ⟨.sub, 0x8005#16, 0xF00F#16⟩, ⟨.shr, 0x8006#16, 0xF00F#16⟩,
   ⟨.subn, 0x8007#16, 0xF00F#16⟩, ⟨.shl, 0x800E#16, 0xF00F#16⟩, ⟨.rnd, 0xC000#16, 0xF000#16⟩]

/-- The rows of the nine unimplemented primary selectors (R92). -/
def fallbackSelectorRows : List OpcodeRow :=
  [⟨.haltUnimpl, 0x2000#16, 0xF000#16⟩, ⟨.haltUnimpl, 0x4000#16, 0xF000#16⟩, ⟨.haltUnimpl, 0x5000#16, 0xF000#16⟩, ⟨.haltUnimpl, 0x9000#16, 0xF000#16⟩,
   ⟨.haltUnimpl, 0xA000#16, 0xF000#16⟩, ⟨.haltUnimpl, 0xB000#16, 0xF000#16⟩, ⟨.haltUnimpl, 0xD000#16, 0xF000#16⟩, ⟨.haltUnimpl, 0xE000#16, 0xF000#16⟩,
   ⟨.haltUnimpl, 0xF000#16, 0xF000#16⟩]

/-- The rows of the seven unimplemented secondary selectors of primary selector 8 (R92). -/
def fallbackAluRows : List OpcodeRow :=
  [⟨.haltUnimpl, 0x8008#16, 0xF00F#16⟩, ⟨.haltUnimpl, 0x8009#16, 0xF00F#16⟩, ⟨.haltUnimpl, 0x800A#16, 0xF00F#16⟩, ⟨.haltUnimpl, 0x800B#16, 0xF00F#16⟩,
   ⟨.haltUnimpl, 0x800C#16, 0xF00F#16⟩, ⟨.haltUnimpl, 0x800D#16, 0xF00F#16⟩, ⟨.haltUnimpl, 0x800F#16, 0xF00F#16⟩]

/-- spec/opcode_table.json. -/
def opcodeRows : List OpcodeRow := implementedRows ++ fallbackSelectorRows ++ fallbackAluRows

/-- Whether a word is one of a row's. -/
def OpcodeRow.covers (r : OpcodeRow) (w : Word) : Bool := w &&& r.mask == r.pattern

/-! ## Encoding (the rows of R90) -/

/-- `PPPP nnnn nnnn nnnn` (format A of R82, and HALT's ignored bits). -/
def encodeA (p : BitVec 4) (nnn : BitVec 12) : Word := p ++ nnn
/-- `PPPP xxxx kkkk kkkk` (format RI of R82). -/
def encodeRI (p : BitVec 4) (x : Reg) (kk : Imm) : Word := (p ++ x) ++ kk
/-- `1000 xxxx yyyy nnnn` (format RR of R82). -/
def encodeRR (n : BitVec 4) (x y : Reg) : Word := ((0x8#4 ++ x) ++ y) ++ n

/-- The word of an instruction. -/
def encode : Instr → Word
  | .halt low     => encodeA 0x0#4 low
  | .jp addr      => encodeA 0x1#4 addr
  | .se x kk      => encodeRI 0x3#4 x kk
  | .ldI x kk     => encodeRI 0x6#4 x kk
  | .addI x kk    => encodeRI 0x7#4 x kk
  | .ldR x y      => encodeRR 0x0#4 x y
  | .orR x y      => encodeRR 0x1#4 x y
  | .andR x y     => encodeRR 0x2#4 x y
  | .xorR x y     => encodeRR 0x3#4 x y
  | .addR x y     => encodeRR 0x4#4 x y
  | .sub x y      => encodeRR 0x5#4 x y
  | .shr x y      => encodeRR 0x6#4 x y
  | .subn x y     => encodeRR 0x7#4 x y
  | .shl x y      => encodeRR 0xE#4 x y
  | .rnd x kk     => encodeRI 0xC#4 x kk
  | .haltUnimpl w => w

/-! ## Bytes: one big-endian word per instruction (R80, 20_memory.md R53) -/

/-- The word whose byte at the lower address is `hi` (R55's `MemRead`). -/
def wordOfBytes (hi lo : Byte) : Word := (hi.setWidth 16 <<< 8) ||| lo.setWidth 16
/-- Byte 0 of a word, w[15:8], stored at the lower address. -/
def highByte (w : Word) : Byte := w.extractLsb' 8 8
/-- Byte 1 of a word, w[7:0]. -/
def lowByte (w : Word) : Byte := w.extractLsb' 0 8

/-- The two bytes of an instruction, in the order they are stored. -/
def encodeBytes (i : Instr) : List Byte := [highByte (encode i), lowByte (encode i)]

/-- Decodes the instruction at the front of a list of bytes and returns the bytes after it. Every instruction is
two bytes (R98), so the only failure is a list that holds fewer. -/
def decodeBytes : List Byte → Except DecodeError (Instr × List Byte)
  | hi :: lo :: rest => .ok (decode (wordOfBytes hi lo), rest)
  | _ => .error .truncated

/-- The stored bytes of the word that spec/opcode_table.json numbers `w`: its low `nbits` bits, the bits above
them zero, high byte first. -/
def tableWordBytes (nbits w : Nat) : List Byte :=
  let word : Word := BitVec.ofNat _ (w % 2 ^ nbits)
  [highByte word, lowByte word]

/-- The instruction the decoder reads from a word of the opcode table. -/
def decodeTableWord (nbits w : Nat) : Option Instr :=
  match decodeBytes (tableWordBytes nbits w) with
  | .ok (i, _) => some i
  | .error _ => none

end Sys2Proof
end

