-- ==== Sys2Proof/Machine/State.lean ====
section
/-! DEFINITION. The state of the block (10_state.md), its stops, and the state after reset (R35). -/

namespace Sys2Proof.Machine

/-- The run state, `STATUS.state` (10_state.md R29, R30). Code 3 is never produced, so it has no constructor
(assumption log 9). -/
inductive RunState where
  | running | halted | faulted
  deriving DecidableEq, Repr

/-- `STATUS.cause` (R30). -/
inductive Cause where
  | noCause | haltExplicit | haltUnimplemented | fetchOutOfBounds
  deriving DecidableEq, Repr

/-- The read-only status register (R30). Its bit layout is `Status.word` in Machine/Ports.lean. -/
structure Status where
  state : RunState
  cause : Cause
  deriving DecidableEq, Repr

/-- The input signals of the block other than `rnd_data`, each at its present level (R40, assumption log 4). -/
structure Pins where
  /-- `rst`: while it is 1 the block is in reset. -/
  rst      : Bool := false
  /-- `img_we`, the image write strobe. -/
  imgWe    : Bool := false
  /-- `img_addr`, the image byte address of a write. -/
  imgAddr  : BitVec 16 := 0
  /-- `img_wdata`, the image write data. -/
  imgWdata : Byte := 0
  deriving DecidableEq, Repr

/-- The bytes of the program image: addresses strictly rising, no entry equal to 0x00, which is what every
address not listed reads as (20_memory.md R52, 70_reset_and_hazards.md R266 (d)). -/
abbrev Memory := List Host.Cell

/-- Everything the spec gives the machine. -/
structure State where
  /-- The implementation's parameters (00_scope.md R7). -/
  cfg        : Config
  /-- The general registers V0 to VF (10_state.md R20). VF is also the flags register (R22). -/
  v          : Vector Byte Config.nreg
  /-- The program counter, a byte address (R26). -/
  pc         : Pc
  /-- STATUS (R30). -/
  status     : Status
  /-- The program image (20_memory.md R50, R51). -/
  image      : Memory
  /-- The levels on the input signals (10_state.md R40). -/
  pins       : Pins
  /-- MODEL'S OWN: the bytes the host's provider will put on `rnd_data`, next draw first (43_random.md R200). -/
  rndOffered : List Byte
  /-- MODEL'S OWN: the number of draws taken so far, which indexes the free value `Config.rndByte`. -/
  draws      : Nat
  deriving DecidableEq, Repr

/-- What stops the machine without a next state: nothing. The two halts and the out-of-bounds fetch of
60_exceptions.md R220 are next states in which STATUS has left RUNNING (assumption log 3), so no meaning raises a
`Fault`, and the type has no constructor. -/
inductive Fault where
  deriving DecidableEq, Repr

/-- What the model has no meaning for. -/
inductive Refusal where
  /-- Raised only by an arm of `exec` whose instruction has no meaning yet. No arm raises it. Safe: nothing can be
  proved of a refused step. -/
  | notModelled (mnemonic : String)
  deriving DecidableEq, Repr

/-- What a step answers. -/
abbrev Result := Host.Outcome State Fault Refusal

/-- RUNNING with no cause, the status after reset (R35). -/
def Status.reset : Status := { state := .running, cause := .noCause }

/-- The machine right after reset, with nothing loaded: R35's values. V0–VF are 0x00 by the spec's decision D3.
`cfg` holds R7's values; the inputs are idle and no draw has been taken (assumption log 2 and 4). -/
def State.reset : State where
  cfg        := { imageSize := 2048, flagReg := 0xF#4, resetPc := 0x0000#16 }
  v          := Vector.replicate Config.nreg 0x00#8
  pc         := 0x0000#16
  status     := Status.reset
  image      := []
  pins       := {}
  rndOffered := []
  draws      := 0

end Sys2Proof.Machine
end

