-- ==== Sys2Proof/Machine/Ops.lean ====
section
/-! DEFINITION. The named operations over registers, the program image, STATUS and the random input. Meanings and
the step are written with these only. -/

namespace Sys2Proof.Machine

/-! ## General registers and the program counter (10_state.md R20, R22, R26) -/

/-- `V[x]`. Every register is readable; none is hard-wired (R20). -/
def State.readV (s : State) (x : Reg) : Byte := s.v[x.toNat]'(x.isLt)

/-- `V[x] <- b`. Every register is writable (R20). -/
def State.writeV (s : State) (x : Reg) (b : Byte) : State := { s with v := s.v.set x.toNat b x.isLt }

/-- `pc <- t`. -/
def State.setPc (s : State) (t : Pc) : State := { s with pc := t }

/-- `pc <- (pc + n) mod 2^16` (R28). -/
def State.advance (s : State) (n : Pc) : State := s.setPc (s.pc + n)

/-- The flags register, named by `FLAG_REG`: VF, register 0xF in every legal configuration (R22, 00_scope.md R7). -/
abbrev State.vf (s : State) : Reg := s.cfg.flagReg

/-- How an instruction that writes one register ends: V[x], then pc (00_scope.md R12). -/
def State.commit (s : State) (x : Reg) (res : Byte) : State := (s.writeV x res).advance (.ofNat _ Config.ilen)

/-- How an instruction that also writes the flag ends: V[x], then VF, then pc, so that VF holds the flag when x names
it (R12, 10_state.md R22). -/
def State.commitFlagged (s : State) (x : Reg) (res flag : Byte) : State :=
  ((s.writeV x res).writeV s.vf flag).advance (.ofNat _ Config.ilen)

/-! ## The program image (20_memory.md) -/

/-- What an address that is not listed reads as: 0x00 (R52, 70_reset_and_hazards.md R266 (d)). -/
def Memory.unlisted : Byte := 0x00#8

/-- `Image[a]`. -/
def Memory.read : Memory → Nat → Byte
  | [], _ => Memory.unlisted
  | (b, d) :: m, a => if a = b then d else Memory.read m a

/-- The list with byte `d` at address `a`, kept in canonical form. -/
def Memory.write : Memory → Nat → Byte → Memory
  | [], a, d => if d = Memory.unlisted then [] else [(a, d)]
  | (b, e) :: m, a, d =>
    if a < b then (if d = Memory.unlisted then (b, e) :: m else (a, d) :: (b, e) :: m)
    else if a = b then (if d = Memory.unlisted then m else (a, d) :: m)
    else (b, e) :: Memory.write m a d

/-- The canonical form: addresses strictly rising, no entry equal to what an unlisted address reads as. -/
def Memory.wf : Memory → Bool
  | [] => true
  | (a, d) :: m => decide (d ≠ Memory.unlisted) && m.all (fun c => decide (a < c.1)) && Memory.wf m

/-- Every listed address is below `n`, the capacity of the image (R50). -/
def Memory.below (n : Nat) (m : Memory) : Bool := m.all (fun c => decide (c.1 < n))

/-- Byte `a` of the program image. -/
def State.readImage (s : State) (a : Nat) : Byte := Memory.read s.image a

/-- Stores one byte of the image. Only the host's load path reaches this (R51). -/
def State.writeImage (s : State) (a : Nat) (d : Byte) : State := { s with image := Memory.write s.image a d }

/-! ## Instruction fetch (20_memory.md section 3) -/

/-- R57: a fetch is admitted exactly when pc + 1, an exact sum, is below `IMAGE_SIZE`. No alignment is asked (R56). -/
def State.fetchAdmitted (s : State) : Bool := decide (s.pc.toNat + 1 < s.cfg.imageSize)

/-- `MemRead(a, 2)` (R55). -/
def State.memRead2 (s : State) (a : Nat) : Word := wordOfBytes (s.readImage a) (s.readImage (a + 1))

/-- The word a step fetches. -/
def State.fetchWord (s : State) : Word := s.memRead2 s.pc.toNat

/-! ## Halts, the fault, and reset (60_exceptions.md) -/

/-- The one way out of RUNNING: STATUS is written, and nothing else (R221, R224). No save area, vector or handler
exists (R228). -/
def State.stop (s : State) (st : RunState) (c : Cause) : State := { s with status := { state := st, cause := c } }

/-- `halt(cause)` (R221). -/
def State.halt (s : State) (c : Cause) : State := s.stop .halted c

/-- `raise Fault(cause)` (R224). -/
def State.raiseFault (s : State) (c : Cause) : State := s.stop .faulted c

/-- Reset, the only way back to RUNNING (R229): pc, V0–VF and STATUS take R35's values. The image is kept
(70_reset_and_hazards.md R262) and the random provider is not touched (R263). -/
def State.assertReset (s : State) : State :=
  { s with pc := s.cfg.resetPc, v := Vector.replicate Config.nreg 0x00#8, status := Status.reset }

/-! ## The random-byte input (43_random.md R200) -/

/-- The byte that the next draw samples: the next one the host has offered, or else a free value. -/
def State.rndData (s : State) : Byte :=
  match s.rndOffered with
  | [] => Config.rndByte s.draws
  | r :: _ => r

/-- The state after one draw: the sampled byte is gone. -/
def State.drawRnd (s : State) : State := { s with rndOffered := s.rndOffered.tail, draws := s.draws + 1 }

end Sys2Proof.Machine
end

