-- ==== Sys2Proof/Machine/Operands.lean ====
section
/-! DEFINITION. The operand forms (30_encoding.md section 2): a register named by X or Y is read with
`State.readV`, an immediate is its 8 bits, and both widen by zero extension, as does an address. -/

namespace Sys2Proof.Machine

/-- `zext_32(b)`, the widening of the add overflow test (30_encoding.md R84, 41_immediate.md R142). -/
def widen32 (b : Byte) : BitVec 32 := b.setWidth 32

/-- `zext_16(b)`, the widening of the subtractions (42_alu.md R165, R167). -/
def widen16 (b : Byte) : BitVec 16 := b.setWidth 16

/-- `e mod 2^8` (00_scope.md R10). -/
def truncate8 (e : BitVec 16) : Byte := e.setWidth 8

/-- `zext_16(addr)`, the target of JP (30_encoding.md R86). -/
def jumpTarget (addr : Addr12) : Pc := addr.setWidth Config.pclen

end Sys2Proof.Machine
end

