-- ==== Sys2Proof/Machine/Flags.lean ====
section
/-! DEFINITION. The arithmetic of the flag-writing instructions: for each, the result and the value VF takes
(10_state.md R23). Every one is a function of the values before the instruction. -/

namespace Sys2Proof.Machine

/-- The sum of the add law: operands and carry-in, modulo 2^8 (41_immediate.md R142). -/
def addResult (a b c : Byte) : Byte := a + b + c

/-- The flag of the add law tests the two operands without the carry-in, and against 0xF (R142). -/
def addFlag (a b : Byte) : Byte := if widen32 a + widen32 b > 0xF#32 then 0x01 else 0x00

/-- X − Y, "on X widened by 256" when it borrows (42_alu.md R165). -/
def subResult (a b : Byte) : Byte := if a < b then truncate8 (widen16 a + 256#16 - widen16 b) else a - b

/-- NOT borrow (R165). -/
def subFlag (a b : Byte) : Byte := if a < b then 0x00 else 0x01

/-- Y − X, widened to 16 bits whichever way the flag goes (R167). -/
def subnResult (a b : Byte) : Byte := truncate8 (widen16 b - widen16 a)

/-- Borrow, the opposite polarity to SUB; 0x00 without a borrow is the spec's decision D5 (R167). -/
def subnFlag (a b : Byte) : Byte := if b < a then 0x01 else 0x00

/-- X >> 1 (R166). -/
def shrResult (a : Byte) : Byte := a >>> 1

/-- The bit shifted out (R166). -/
def shrFlag (a : Byte) : Byte := a &&& 0x01

/-- X << 1, high bit discarded (R168). -/
def shlResult (a : Byte) : Byte := a <<< 1

/-- The raw old bit 7, 0x00 or 0x80, not normalised (R168). -/
def shlFlag (a : Byte) : Byte := a &&& 0x80

end Sys2Proof.Machine
end

