-- ==== Sys2Proof/Machine/Alu.lean ====
section
/-! DEFINITION. The nine register-register instructions (42_alu.md). Both operands are read before any write
(R159), which the meanings say by reading the state they are given. -/

namespace Sys2Proof.Machine

/-- LD Vx, Vy (R160). -/
def execLdR (x y : Reg) (s : State) : Result := .next (s.commit x (s.readV y))

/-- OR Vx, Vy (R161). -/
def execOrR (x y : Reg) (s : State) : Result := .next (s.commit x (s.readV x ||| s.readV y))

/-- AND Vx, Vy (R162). -/
def execAndR (x y : Reg) (s : State) : Result := .next (s.commit x (s.readV x &&& s.readV y))

/-- XOR Vx, Vy (R163). -/
def execXorR (x y : Reg) (s : State) : Result := .next (s.commit x (s.readV x ^^^ s.readV y))

/-- ADD Vx, Vy: the add law on V[x], V[y] and the carry-in VF (R164). -/
def execAddR (x y : Reg) (s : State) : Result :=
  .next (s.commitFlagged x (addResult (s.readV x) (s.readV y) (s.readV s.vf)) (addFlag (s.readV x) (s.readV y)))

/-- SUB Vx, Vy (R165). -/
def execSub (x y : Reg) (s : State) : Result :=
  .next (s.commitFlagged x (subResult (s.readV x) (s.readV y)) (subFlag (s.readV x) (s.readV y)))

/-- SHR Vx; V[y] is neither read nor written (R166). -/
def execShr (x _y : Reg) (s : State) : Result :=
  .next (s.commitFlagged x (shrResult (s.readV x)) (shrFlag (s.readV x)))

/-- SUBN Vx, Vy; the destination is V[x] by the spec's decision D17 (R167). -/
def execSubn (x y : Reg) (s : State) : Result :=
  .next (s.commitFlagged x (subnResult (s.readV x) (s.readV y)) (subnFlag (s.readV x) (s.readV y)))

/-- SHL Vx; V[y] is neither read nor written (R168). -/
def execShl (x _y : Reg) (s : State) : Result :=
  .next (s.commitFlagged x (shlResult (s.readV x)) (shlFlag (s.readV x)))

end Sys2Proof.Machine
end

