-- ==== Sys2Proof/Machine/Control.lean ====
section
/-! DEFINITION. HALT, the fallback, JP and SE (40_control.md). -/

namespace Sys2Proof.Machine

/-- HALT (R121). The ignored bits have no effect. -/
def execHalt (_ignored : BitVec 12) (s : State) : Result := .next (s.halt .haltExplicit)

/-- The fallback (R122). pc stays at the word, which stays in the image; its value has no effect. -/
def execHaltUnimpl (_word : Word) (s : State) : Result := .next (s.halt .haltUnimplemented)

/-- JP addr: "directly (not relative, not incremented)" (R123). -/
def execJp (addr : Addr12) (s : State) : Result := .next (s.setPc (jumpTarget addr))

/-- SE Vx, byte (R126). The instruction passed over is not fetched (R127). -/
def execSe (x : Reg) (kk : Imm) (s : State) : Result :=
  .next (if s.readV x = kk then s.advance (.ofNat _ (2 * Config.ilen)) else s.advance (.ofNat _ Config.ilen))

end Sys2Proof.Machine
end

