-- ==== Sys2Proof/Machine/Immediate.lean ====
section
/-! DEFINITION. LD Vx, byte and ADD Vx, byte (41_immediate.md). -/

namespace Sys2Proof.Machine

/-- LD Vx, byte (R141). -/
def execLdI (x : Reg) (kk : Imm) (s : State) : Result := .next (s.commit x kk)

/-- ADD Vx, byte: the add law on V[x], the immediate and the carry-in VF (R143). -/
def execAddI (x : Reg) (kk : Imm) (s : State) : Result :=
  .next (s.commitFlagged x (addResult (s.readV x) kk (s.readV s.vf)) (addFlag (s.readV x) kk))

end Sys2Proof.Machine
end

