-- ==== Sys2Proof/Machine/Random.lean ====
section
/-! DEFINITION. RND Vx, byte (43_random.md). -/

namespace Sys2Proof.Machine

/-- RND Vx, byte: one draw, ANDed with the mask (R201). -/
def execRnd (x : Reg) (kk : Imm) (s : State) : Result := .next (s.drawRnd.commit x (s.rndData &&& kk))

end Sys2Proof.Machine
end

