-- ==== Sys2Proof/Machine/Dispatch.lean ====
section
/-! DEFINITION. The dispatch of 30_encoding.md R100: one arm per constructor of Instr. -/

namespace Sys2Proof.Machine

def exec (i : Instr) (s : State) : Host.Outcome State Fault Refusal :=
  match i with
  | .halt low => Sys2Proof.Machine.execHalt low s
  | .jp addr => Sys2Proof.Machine.execJp addr s
  | .se x kk => Sys2Proof.Machine.execSe x kk s
  | .ldI x kk => Sys2Proof.Machine.execLdI x kk s
  | .addI x kk => Sys2Proof.Machine.execAddI x kk s
  | .ldR x y => Sys2Proof.Machine.execLdR x y s
  | .orR x y => Sys2Proof.Machine.execOrR x y s
  | .andR x y => Sys2Proof.Machine.execAndR x y s
  | .xorR x y => Sys2Proof.Machine.execXorR x y s
  | .addR x y => Sys2Proof.Machine.execAddR x y s
  | .sub x y => Sys2Proof.Machine.execSub x y s
  | .shr x y => Sys2Proof.Machine.execShr x y s
  | .subn x y => Sys2Proof.Machine.execSubn x y s
  | .shl x y => Sys2Proof.Machine.execShl x y s
  | .rnd x kk => Sys2Proof.Machine.execRnd x kk s
  | .haltUnimpl word => Sys2Proof.Machine.execHaltUnimpl word s

end Sys2Proof.Machine
end

