-- ==== Sys2Proof/Machine/Ports.lean ====
section
/-! DEFINITION. The interface of the block (10_state.md R40): what the host drives, what a cycle in reset does
with it, and what the host reads. -/

namespace Sys2Proof.Machine

/-! ## Inputs -/

/-- The host sets the input signals. It does so between steps, never inside one (assumption log 4). -/
def State.drive (s : State) (p : Pins) : State := { s with pins := p }

/-- The host's provider lines up the bytes of the next draws (43_random.md R200). -/
def State.offerRnd (s : State) (bs : List Byte) : State := { s with rndOffered := bs }

/-- Whether the image port stores a byte: only in reset, and only below `IMAGE_SIZE`
(70_reset_and_hazards.md R266 (a) to (c)). -/
def State.portWrites (s : State) : Bool :=
  s.pins.rst && s.pins.imgWe && decide (s.pins.imgAddr.toNat < s.cfg.imageSize)

/-- The image port. A write that R266 does not honour is ignored. -/
def State.portWrite (s : State) : State :=
  if s.portWrites then s.writeImage s.pins.imgAddr.toNat s.pins.imgWdata else s

/-- One cycle with `rst` = 1: the image port is served and the state takes its reset values; no step occurs
(R260, assumption log 5). -/
def State.resetCycle (s : State) : State := s.portWrite.assertReset

/-! ## Outputs -/

/-- The code of `STATUS.state` (10_state.md R30). -/
def RunState.code : RunState → BitVec 2
  | .running => 0 | .halted => 1 | .faulted => 2

/-- The code of `STATUS.cause` (R30). -/
def Cause.code : Cause → BitVec 2
  | .noCause => 0 | .haltExplicit => 1 | .haltUnimplemented => 2 | .fetchOutOfBounds => 3

/-- STATUS as a word: `cause` in bits 3:2, `state` in bits 1:0 (R30). -/
def Status.word (t : Status) : BitVec 4 := t.cause.code ++ t.state.code

/-- The pairs R30 allows. -/
def Status.legal (t : Status) : Bool :=
  match t.state, t.cause with
  | .running, .noCause | .halted, .haltExplicit | .halted, .haltUnimplemented | .faulted, .fetchOutOfBounds => true
  | _, _ => false

/-- The `state` output. -/
def State.stateOut (s : State) : BitVec 2 := s.status.state.code
/-- The `cause` output. -/
def State.causeOut (s : State) : BitVec 2 := s.status.cause.code
/-- The `pc_q` output. -/
def State.pcQ (s : State) : Pc := s.pc
/-- The `v_q` outputs. -/
def State.vQ (s : State) : Vector Byte Config.nreg := s.v

/-- A step is enabled: out of reset and RUNNING (R29, 30_encoding.md R100). -/
def State.enabled (s : State) : Bool := !s.pins.rst && decide (s.status.state = .running)

/-- The `rnd_take` output: 1 in the step that samples `rnd_data`, which is the one that executes RND (R200). -/
def State.rndTake (s : State) : Bool :=
  s.enabled && s.fetchAdmitted && decide ((decode s.fetchWord).op = .rnd)

end Sys2Proof.Machine
end

