-- ==== Sys2Proof/Machine/Load.lean ====
section
/-! DEFINITION. Placing bytes in the image from outside the machine: what `State.withFetchWord` is made of
(assumption log 7). -/

namespace Sys2Proof.Machine

/-- Stores bytes at consecutive addresses of the image. -/
def State.storeBytes (s : State) (a : Nat) : List Byte → State
  | [] => s
  | d :: ds => (s.writeImage a d).storeBytes (a + 1) ds

/-- `s` as a step needs it: out of reset, RUNNING, and with a pc whose fetch R57 admits (reset's pc if its own is
not admitted). A state that is so already is left as it is. -/
def State.readied (s : State) : State :=
  let s := { s with pins := { s.pins with rst := false } }
  let s := if s.status.state = .running then s else { s with status := Status.reset }
  if s.fetchAdmitted then s else s.setPc s.cfg.resetPc

end Sys2Proof.Machine
end

