-- ==== Sys2Proof/Machine/Step.lean ====
section
/-! DEFINITION. The step (30_encoding.md R100). -/

namespace Sys2Proof.Machine

/-- One step. In reset, a reset cycle (R260). Stopped, nothing changes until reset (10_state.md R29, assumption
log 3). RUNNING, the fetch check of 20_memory.md R57, then fetch, decode and execute. -/
def step (s : State) : Host.Outcome State Fault Refusal :=
  if s.pins.rst then .next s.resetCycle
  else if s.status.state = .running then
    if s.fetchAdmitted then exec (decode s.fetchWord) s
    else .next (s.raiseFault .fetchOutOfBounds)
  else .next s

/-- `s` with the instruction word `w` of the opcode table stored where `step` fetches next (assumption log 7). -/
def State.withFetchWord (s : State) (nbits w : Nat) : State :=
  s.readied.storeBytes s.readied.pc.toNat (tableWordBytes nbits w)

/-- One step after another with the host driving the input signals before each: the boot sequence of
70_reset_and_hazards.md R267 is such a list. -/
def runDriven : List Pins → State → Host.Outcome State Fault Refusal
  | [], s => .next s
  | p :: ps, s =>
    match step (s.drive p) with
    | .next t => runDriven ps t
    | .fault r => .fault r
    | .refused r => .refused r

end Sys2Proof.Machine
end

