-- ==== Sys2Proof/Machine/Assembler.lean ====
section
/-! DEFINITION. The assembler (30_encoding.md R99): the lines it accepts, as text and as abstract syntax, and the word
each emits. Points of spelling that R99 leaves open are assumption log 10. -/

namespace Sys2Proof.Machine

/-- The address operand of JP: "an integer 0–4095, or a label that resolves to one" (R99). -/
inductive AsmAddr where
  | number (n : Nat)
  | label (name : String)
  deriving DecidableEq, Repr

/-- One line of R99, with registers already resolved to their numbers. -/
inductive AsmLine where
  | halt
  | jp (addr : AsmAddr)
  | se (x : Reg) (byte : Nat)
  | ldI (x : Reg) (byte : Nat)
  | addI (x : Reg) (byte : Nat)
  | ldR (x y : Reg)
  | orR (x y : Reg)
  | andR (x y : Reg)
  | xorR (x y : Reg)
  | addR (x y : Reg)
  | sub (x y : Reg)
  /-- `SHR Vx` or `SHR Vx, Vy`. -/
  | shr (x : Reg) (y : Option Reg)
  | subn (x y : Reg)
  /-- `SHL Vx` or `SHL Vx, Vy`. -/
  | shl (x : Reg) (y : Option Reg)
  | rnd (x : Reg) (byte : Nat)
  /-- `DW 0xHHHH`, one raw word. -/
  | dw (word : Word)
  /-- The pseudo-instruction `NOP` = `LD V0, V0`. -/
  | nop
  deriving DecidableEq, Repr

/-- A byte operand: an integer 0–255 (R99). -/
def asmByte (n : Nat) : Option Imm := if n < 256 then some (BitVec.ofNat 8 n) else none

/-- An address operand, given what each label stands for: an integer 0–4095 (R99). -/
def asmAddr (labels : List (String × Nat)) : AsmAddr → Option Addr12
  | .number n => if n < 4096 then some (BitVec.ofNat 12 n) else none
  | .label name =>
    match labels.lookup name with
    | some n => if n < 4096 then some (BitVec.ofNat 12 n) else none
    | none => none

/-- The instruction of a line, or nothing where an operand is out of R99's range. `HALT` is the word 0x0000, and
`SHR Vx` and `SHL Vx` take Y = 0. -/
def assembleInstr (labels : List (String × Nat)) : AsmLine → Option Instr
  | .halt => some (.halt 0)
  | .jp a => (asmAddr labels a).map .jp
  | .se x n => (asmByte n).map (.se x)
  | .ldI x n => (asmByte n).map (.ldI x)
  | .addI x n => (asmByte n).map (.addI x)
  | .ldR x y => some (.ldR x y)
  | .orR x y => some (.orR x y)
  | .andR x y => some (.andR x y)
  | .xorR x y => some (.xorR x y)
  | .addR x y => some (.addR x y)
  | .sub x y => some (.sub x y)
  | .shr x y => some (.shr x (y.getD 0))
  | .subn x y => some (.subn x y)
  | .shl x y => some (.shl x (y.getD 0))
  | .rnd x n => (asmByte n).map (.rnd x)
  | .dw w => some (decode w)
  | .nop => some (.ldR 0 0)

/-- The word a line emits; `DW` emits its own (R99). -/
def assemble (labels : List (String × Nat)) (l : AsmLine) : Option Word :=
  (assembleInstr labels l).map encode

/-! ## Lines as text -/

/-- The value of a hexadecimal digit, capital or not (in a number a DESIGN CHOICE, assumption log 10). -/
def hexDigit (c : Char) : Option Nat :=
  let n := c.toUpper.toNat
  if 48 ≤ n ∧ n ≤ 57 then some (n - 48) else if 65 ≤ n ∧ n ≤ 70 then some (n - 55) else none

/-- Digits to a number in a base, most significant first; nothing if one is no digit of the base. -/
def digitsValue (base : Nat) : List Char → Nat → Option Nat
  | [], acc => some acc
  | c :: cs, acc =>
    match hexDigit c with
    | some d => if d < base then digitsValue base cs (acc * base + d) else none
    | none => none

/-- "written in hex as `0xHH` or in decimal" (R99). DESIGN CHOICE: `0X` is read as `0x`, and a hexadecimal number may
have any number of digits, each capital or not (assumption log 10). -/
def parseNumber : List Char → Option Nat
  | '0' :: 'x' :: c :: cs => digitsValue 16 (c :: cs) 0
  | '0' :: 'X' :: c :: cs => digitsValue 16 (c :: cs) 0
  | c :: cs => digitsValue 10 (c :: cs) 0
  | [] => none

/-- `V0`–`V9`, `VA`–`VF`, not case-sensitive (R99). -/
def parseReg : List Char → Option Reg
  | [v, d] => if v.toUpper = 'V' then (hexDigit d).map (BitVec.ofNat 4) else none
  | _ => none

/-- A text without the spaces at its two ends. -/
def trimSpaces (cs : List Char) : List Char :=
  ((cs.dropWhile (· = ' ')).reverse.dropWhile (· = ' ')).reverse

/-- The comma-separated operands of a line, `cur` being the one being read, last character first. -/
def splitOperands : List Char → List Char → List (List Char)
  | [], cur => [trimSpaces cur.reverse]
  | ',' :: cs, cur => trimSpaces cur.reverse :: splitOperands cs []
  | c :: cs, cur => splitOperands cs (c :: cur)

/-- A line with a register and a byte operand. -/
def regByte (f : Reg → Nat → AsmLine) (x k : List Char) : Option AsmLine :=
  match parseReg x, parseNumber k with
  | some x, some n => some (f x n)
  | _, _ => none

/-- A line with two register operands. -/
def regReg (f : Reg → Reg → AsmLine) (x y : List Char) : Option AsmLine :=
  match parseReg x, parseReg y with
  | some x, some y => some (f x y)
  | _, _ => none

/-- A mnemonic in capitals and its operands (the forms of R99). DESIGN CHOICE: `DW` takes its word in decimal too, where
R99 writes `DW 0xHHHH` only (assumption log 10). -/
def parseForm : List Char → List (List Char) → Option AsmLine
  | ['H', 'A', 'L', 'T'], [] => some .halt
  | ['N', 'O', 'P'], [] => some .nop
  | ['J', 'P'], [a] =>
    match parseNumber a with
    | some n => some (.jp (.number n))
    | none => some (.jp (.label (String.ofList a)))
  | ['S', 'E'], [x, k] => regByte .se x k
  | ['L', 'D'], [x, k] => if (parseReg k).isSome then regReg .ldR x k else regByte .ldI x k
  | ['A', 'D', 'D'], [x, k] => if (parseReg k).isSome then regReg .addR x k else regByte .addI x k
  | ['O', 'R'], [x, y] => regReg .orR x y
  | ['A', 'N', 'D'], [x, y] => regReg .andR x y
  | ['X', 'O', 'R'], [x, y] => regReg .xorR x y
  | ['S', 'U', 'B'], [x, y] => regReg .sub x y
  | ['S', 'U', 'B', 'N'], [x, y] => regReg .subn x y
  | ['S', 'H', 'R'], [x] => (parseReg x).map fun x => .shr x none
  | ['S', 'H', 'R'], [x, y] => regReg (fun x y => .shr x (some y)) x y
  | ['S', 'H', 'L'], [x] => (parseReg x).map fun x => .shl x none
  | ['S', 'H', 'L'], [x, y] => regReg (fun x y => .shl x (some y)) x y
  | ['R', 'N', 'D'], [x, k] => regByte .rnd x k
  | ['D', 'W'], [k] =>
    match parseNumber k with
    | some n => if n < 65536 then some (.dw (BitVec.ofNat 16 n)) else none
    | none => none
  | _, _ => none

/-- One line of text, `MNEMONIC operand, operand`; the mnemonic is not case-sensitive (R99). -/
def parseLine (text : List Char) : Option AsmLine :=
  let cs := trimSpaces text
  let mnemonic := (cs.takeWhile (· ≠ ' ')).map Char.toUpper
  let rest := trimSpaces (cs.dropWhile (· ≠ ' '))
  parseForm mnemonic (if rest = [] then [] else splitOperands rest [])

end Sys2Proof.Machine
end

