-- ==== Sys2Proof/WellFormed.lean ====
section
/-! DEFINITION. What the types of Syntax.lean leave to check. Register numbers, immediates and addresses have the
width of their field, so every value of them is legal (30_encoding.md R83, R84, R86). -/

namespace Sys2Proof

/-- A fallback instruction holds a word that R92 sends to the fallback; every other instruction is well formed. -/
def Instr.wellFormed : Instr → Bool
  | .haltUnimpl w => isFallbackWord w
  | .halt _ | .jp _ | .se _ _ | .ldI _ _ | .addI _ _ | .ldR _ _ | .orR _ _ | .andR _ _ | .xorR _ _ | .addR _ _
  | .sub _ _ | .shr _ _ | .subn _ _ | .shl _ _ | .rnd _ _ => true

/-- The fields an operation does not use are zero in its arguments record (R85). -/
def Args.wellFormedFor (op : Op) (a : Args) : Bool :=
  match op with
  | .halt | .haltUnimpl => a.addr == 0 && a.x == 0 && a.y == 0 && a.imm == 0
  | .jp => a.x == 0 && a.y == 0 && a.imm == 0
  | .se | .ldI | .addI | .rnd => a.addr == 0 && a.y == 0
  | .ldR | .orR | .andR | .xorR | .addR | .sub | .shr | .subn | .shl => a.addr == 0 && a.imm == 0

end Sys2Proof
end

