-- ==== Sys2Proof/Safety.lean ====
section
/-! DEFINITION. The terms in which claims about the machine are made: its invariant, and what an instruction may
write. -/

namespace Sys2Proof.Machine

/-- What holds of every state the machine can be in: the parameters are R7's, the image is in canonical form and
inside its capacity (20_memory.md R50), and STATUS is one of the pairs of 10_state.md R30. -/
def State.Inv (s : State) : Prop :=
  s.cfg.wf = true ∧ Memory.wf s.image = true ∧ Memory.below s.cfg.imageSize s.image = true ∧
  s.status.legal = true

/-- Nothing outside the registers, pc and the random input differs: STATUS, every byte of the image, the
parameters and the inputs are as before. -/
def SameSurroundings (s t : State) : Prop :=
  t.status = s.status ∧ t.image = s.image ∧ (∀ a, t.readImage a = s.readImage a) ∧ t.cfg = s.cfg ∧ t.pins = s.pins

/-- No draw was taken: the bytes on offer and their count are as before. -/
def NoDraw (s t : State) : Prop := t.rndOffered = s.rndOffered ∧ t.draws = s.draws

/-- Every general register outside `xs` is as before. -/
def OnlyRegisters (xs : List Reg) (s t : State) : Prop := ∀ r, r ∉ xs → t.readV r = s.readV r

/-- The frame of an instruction that is not RND: registers outside `xs`, the surroundings and the random input are
as before. pc is said apart. -/
def Frame (xs : List Reg) (s t : State) : Prop := OnlyRegisters xs s t ∧ SameSurroundings s t ∧ NoDraw s t

/-- Applies `f` to a next state. -/
def onNext (f : State → State) : Host.Outcome State Fault Refusal → Host.Outcome State Fault Refusal
  | .next t => .next (f t)
  | .fault r => .fault r
  | .refused r => .refused r

/-- `k` steps of the machine, through the host's interface. -/
def runSteps (k : Nat) (s : State) : Host.Outcome State Fault Refusal := Sys2Proof.core.run k s

end Sys2Proof.Machine

namespace Sys2Proof

/-- The register an instruction names as its destination (10_state.md R21, column "writes"). -/
def Instr.dest : Instr → Option Reg
  | .halt _ | .jp _ | .se _ _ | .haltUnimpl _ => none
  | .ldI x _ | .addI x _ | .ldR x _ | .orR x _ | .andR x _ | .xorR x _ | .addR x _ | .sub x _ | .shr x _
  | .subn x _ | .shl x _ | .rnd x _ => some x

/-- The six operations that write VF as a side effect (10_state.md R23). -/
def Op.writesFlag : Op → Bool
  | .addI | .addR | .sub | .shr | .subn | .shl => true
  | .halt | .jp | .se | .ldI | .ldR | .orR | .andR | .xorR | .rnd | .haltUnimpl => false

/-- All the registers an instruction may write, `vf` being the flags register. -/
def Instr.writes (vf : Reg) (i : Instr) : List Reg := i.dest.toList ++ (if i.op.writesFlag then [vf] else [])

/-- The two operations that end a run (10_state.md R26, 60_exceptions.md R220). -/
def Op.halts : Op → Bool
  | .halt | .haltUnimpl => true
  | .jp | .se | .ldI | .addI | .ldR | .orR | .andR | .xorR | .addR | .sub | .shr | .subn | .shl | .rnd => false

end Sys2Proof
end

