-- ==== Sys2Proof/Certificates/Slice0/Obligations.lean ====
section
/-! DEFINITION. The statements for the provers, each from the rule or section of the spec its docstring names. Where
a clause rests on a decision of spec/92_eei_decisions.md (the spec's own choice) or on an entry of this model's
assumption log, the docstring says so. The flags register VF is written `s.vf`, the register that `FLAG_REG` names;
it is 0xF in every legal configuration (00_scope.md R7), and the statements hold for every value of it. -/

open Sys2Proof Sys2Proof.Machine

/-! ## Encoding -/

/-- Decode and encode agree, for every instruction and every operand its encoding admits (30_encoding.md section 3,
R95). Clause for the ignored bits of the two halts: this model's choice, assumption log 6. -/
def Obligations.DecodeOfEncodeIsIdentity : Prop :=
  ∀ i : Instr, i.wellFormed = true → decode (encode i) = i

/-- The other direction: every one of the 65536 words decodes to a well-formed instruction that rebuilds it
(30_encoding.md section 3; assumption log 6 for the halting words). -/
def Obligations.EncodeOfDecodeIsIdentity : Prop :=
  ∀ w : Word, encode (decode w) = w ∧ (decode w).wellFormed = true

/-- Two bytes per instruction and no prefix: the stored bytes of a well-formed instruction, with anything after them,
decode to it and leave what follows (30_encoding.md sections 1, 3 and 4). For the ignored bits of the two halts the
round trip is this model's choice, assumption log 6. -/
def Obligations.StoredInstructionIsTwoBytes : Prop :=
  ∀ (i : Instr) (rest : List Byte), i.wellFormed = true →
    (encodeBytes i).length = 2 ∧ decodeBytes (encodeBytes i ++ rest) = .ok (i, rest)

/-- Every word lies in a row of spec/opcode_table.json, and the decoder gives the operation of each row that covers
it; so no two rows of different operations overlap (30_encoding.md section 3; secondary selectors by decision D15). -/
def Obligations.OpcodeRowsDecideTheOperation : Prop :=
  ∀ w : Word, (∃ r ∈ opcodeRows, r.covers w = true) ∧
    ∀ r ∈ opcodeRows, r.covers w = true → (decode w).op = r.op

/-- The halting words: primary selector 0 is the explicit HALT, and the fallback takes exactly the selectors of R92
(30_encoding.md section 3; decisions D10 and D15). -/
def Obligations.HaltAndFallbackWords : Prop :=
  ∀ w : Word,
    ((decode w).op = .halt ↔ w.toNat < 0x1000) ∧
    ((decode w).op = .haltUnimpl ↔
      w.toNat / 4096 ∈ [0x2, 0x4, 0x5, 0x9, 0xA, 0xB, 0xD, 0xE, 0xF] ∨
      (w.toNat / 4096 = 0x8 ∧ w.toNat % 16 ∈ [0x8, 0x9, 0xA, 0xB, 0xC, 0xD, 0xF]))

/-- In primary selector 8 the X and Y values never change which operation is selected (30_encoding.md section 3,
R93). -/
def Obligations.RegisterFieldsNeverSelectTheOperation : Prop :=
  ∀ w w' : Word, w.toNat / 4096 = 8 → w'.toNat / 4096 = 8 → w.toNat % 16 = w'.toNat % 16 →
    (decode w).op = (decode w').op

/-- The Operation Arguments record: each extractor fills only its own fields, from the bits the table of R85 names,
and every other field is zero (30_encoding.md section 2). -/
def Obligations.ArgumentsComeFromTheirFields : Prop :=
  ∀ w : Word, let a := (decode w).args
    ((decode w).op ∈ [.halt, .haltUnimpl] → a = { addr := 0, x := 0, y := 0, imm := 0 }) ∧
    ((decode w).op = .jp → a.addr.toNat = w.toNat % 4096 ∧ a.x = 0 ∧ a.y = 0 ∧ a.imm = 0) ∧
    ((decode w).op ∈ [.se, .ldI, .addI, .rnd] →
      a.addr = 0 ∧ a.x.toNat = w.toNat / 256 % 16 ∧ a.y = 0 ∧ a.imm.toNat = w.toNat % 256) ∧
    ((decode w).op ∈ [.ldR, .orR, .andR, .xorR, .addR, .sub, .shr, .subn, .shl] →
      a.addr = 0 ∧ a.x.toNat = w.toNat / 256 % 16 ∧ a.y.toNat = w.toNat / 16 % 16 ∧ a.imm = 0)

/-- A few words, bit by bit from the encodings of 30_encoding.md section 3, and what they stand for. -/
def Obligations.SampleWordsDecode : Prop :=
  decode 0b0001101010111100#16 = .jp 0xABC ∧ decode 0b0011001000000101#16 = .se 2 0x05 ∧
  decode 0b0110101000111100#16 = .ldI 0xA 0x3C ∧ decode 0b1000000100100101#16 = .sub 1 2 ∧
  decode 0b1100001111111111#16 = .rnd 3 0xFF ∧ (decode 0b0000000000000000#16).op = .halt ∧
  (decode 0b0010101010111100#16).op = .haltUnimpl

/-- The forms of R99, each with the word it emits and the operands it accepts: a byte below 256, an address below 4096
or a label that resolves to one, any register. `SHR Vx` and `SHL Vx` emit Y = 0, `HALT` emits 0x0000, `NOP` 0x8000, and
`DW` its own word. Every accepted line emits a word that decodes to the line's instruction (30_encoding.md sections 3
and 5; decisions D15, D16; what a label stands for is given from outside, assumption log 10). -/
def Obligations.AssembledLinesDecodeBack : Prop :=
  ∀ (labels : List (String × Nat)) (x y : Reg) (n : Nat) (name : String) (w : Word),
    let byteForm (p : Nat) : Option Word :=
      if n < 256 then some (.ofNat 16 (p * 4096 + x.toNat * 256 + n)) else none
    let regForm (y : Reg) (sel : Nat) : Option Word :=
      some (.ofNat 16 (0x8000 + x.toNat * 256 + y.toNat * 16 + sel))
    (assemble labels .halt = some 0x0000#16 ∧ assemble labels .nop = some 0x8000#16 ∧
      assemble labels (.dw w) = some w) ∧
    (assemble labels (.jp (.number n)) = (if n < 4096 then some (.ofNat 16 (0x1000 + n)) else none) ∧
      (labels.lookup name = some n → assemble labels (.jp (.label name)) = assemble labels (.jp (.number n))) ∧
      (labels.lookup name = none → assemble labels (.jp (.label name)) = none)) ∧
    (assemble labels (.se x n) = byteForm 0x3 ∧ assemble labels (.ldI x n) = byteForm 0x6 ∧
      assemble labels (.addI x n) = byteForm 0x7 ∧ assemble labels (.rnd x n) = byteForm 0xC) ∧
    (assemble labels (.ldR x y) = regForm y 0x0 ∧ assemble labels (.orR x y) = regForm y 0x1 ∧
      assemble labels (.andR x y) = regForm y 0x2 ∧ assemble labels (.xorR x y) = regForm y 0x3 ∧
      assemble labels (.addR x y) = regForm y 0x4 ∧ assemble labels (.sub x y) = regForm y 0x5 ∧
      assemble labels (.subn x y) = regForm y 0x7) ∧
    (assemble labels (.shr x none) = regForm 0 0x6 ∧ assemble labels (.shr x (some y)) = regForm y 0x6 ∧
      assemble labels (.shl x none) = regForm 0 0xE ∧ assemble labels (.shl x (some y)) = regForm y 0xE) ∧
    ∀ l i, assembleInstr labels l = some i → ∃ v, assemble labels l = some v ∧ decode v = i

/-! ## The step -/

/-- A step runs the decoded instruction: where the two bytes at pc decode to `i`, the step is `exec i`, with nothing
added around it (30_encoding.md section 6). -/
def Obligations.StepRunsTheDecodedInstruction : Prop :=
  ∀ (s : State) (i : Instr), s.pins.rst = false → s.status.state = .running →
    s.pc.toNat + 1 < s.cfg.imageSize →
    decodeBytes [s.readImage s.pc.toNat, s.readImage (s.pc.toNat + 1)] = .ok (i, []) →
    step s = exec i s

/-- The word fetched at pc is big-endian: the byte at pc supplies bits 15:8 and the byte at pc + 1 bits 7:0
(20_memory.md section 2), at an odd pc as at an even one (20_memory.md section 3; decision D7, assumption log 8). -/
def Obligations.FetchedWordIsBigEndian : Prop :=
  ∀ s : State, s.fetchWord.extractLsb' 8 8 = s.readImage s.pc.toNat ∧
    s.fetchWord.extractLsb' 0 8 = s.readImage (s.pc.toNat + 1)

/-- A fetch that would read a byte at or above `IMAGE_SIZE` faults and changes STATUS alone; pc keeps the faulting
address (20_memory.md section 3; decisions D8 and D10). -/
def Obligations.FetchOutOfBoundsFaults : Prop :=
  ∀ s : State, s.pins.rst = false → s.status.state = .running → s.cfg.imageSize ≤ s.pc.toNat + 1 →
    step s = .next { s with status := { state := .faulted, cause := .fetchOutOfBounds } }

/-- No step of the block faults or is refused in the host's sense: the block's own halts and fault are next states
(60_exceptions.md section 1; assumption log 3). -/
def Obligations.EveryStepAnswersNextState : Prop := ∀ s : State, ∃ t, step s = .next t

/-- Out of reset, a run ends exactly at a halt, at the fallback or at an out-of-bounds fetch (30_encoding.md section 6;
the bound of the fetch, 20_memory.md section 3, is decision D8), and after that step no register, pc, STATUS or image
byte changes any more (60_exceptions.md sections 1 and 3; decision D11). That a stopped machine goes on answering its own
state, and that the inputs keep their levels during the run, are this model's choices, assumption logs 3 and 4. -/
def Obligations.RunEndsExactlyAtHaltOrFault : Prop :=
  ∀ s t : State, s.pins.rst = false → s.status.state = .running → step s = .next t →
    (t.status.state ≠ .running ↔
      (s.cfg.imageSize ≤ s.pc.toNat + 1 ∨ (decode s.fetchWord).op = .halt ∨
        (decode s.fetchWord).op = .haltUnimpl)) ∧
    (t.status.state ≠ .running → ∀ k u, runSteps k t = .next u →
      u.v = t.v ∧ u.pc = t.pc ∧ u.status = t.status ∧ u.image = t.image)

/-- HALTED and FAULTED are terminal: out of reset, any number of steps leaves the whole state as it is
(10_state.md section 4; that a stopped machine answers its own state is this model's choice, assumption log 3). -/
def Obligations.StoppedStaysStopped : Prop :=
  ∀ (k : Nat) (s : State), s.pins.rst = false → s.status.state ≠ .running → runSteps k s = .next s

/-- A jump to its own address loops for ever without changing any state (40_control.md section JP, R124 (a);
60_exceptions.md section 5). -/
def Obligations.JumpToSelfNeverEnds : Prop :=
  ∀ (k : Nat) (s : State) (addr : Addr12), s.pins.rst = false → s.status.state = .running →
    s.pc.toNat + 1 < s.cfg.imageSize → decode s.fetchWord = .jp addr → addr.toNat = s.pc.toNat →
    runSteps k s = .next s

/-- A jump out of the image is taken, and the next fetch faults with pc at the target (40_control.md section JP, R124
(c); decision D8). -/
def Obligations.JumpOutOfImageFaultsAtNextFetch : Prop :=
  ∀ (s : State) (addr : Addr12), s.pins.rst = false → s.status.state = .running →
    s.pc.toNat + 1 < s.cfg.imageSize → decode s.fetchWord = .jp addr → s.cfg.imageSize ≤ addr.toNat + 1 →
    ∃ u, runSteps 2 s = .next u ∧ u.status = { state := .faulted, cause := .fetchOutOfBounds } ∧
      u.pc.toNat = addr.toNat ∧ u.v = s.v

/-- The instruction that a taken SE passes over is never read: changing its two bytes changes nothing of this step
and the next (40_control.md section SE, R127; decision D21). -/
def Obligations.SkippedWordIsNeverRead : Prop :=
  ∀ (s : State) (m : Memory) (x : Reg) (kk : Imm), s.pins.rst = false → s.status.state = .running →
    s.pc.toNat + 1 < s.cfg.imageSize → decode s.fetchWord = .se x kk → s.readV x = kk →
    (∀ a, a ≠ s.pc.toNat + 2 → a ≠ s.pc.toNat + 3 → Memory.read m a = s.readImage a) →
    runSteps 2 { s with image := m } = onNext (fun u => { u with image := m }) (runSteps 2 s)

/-! ## Reset and the image port -/

/-- The reset state: pc 0x0000 and RUNNING with cause NONE, V0 to VF 0x00 (decision D3), the image 0x00 everywhere
(decision D14) (10_state.md section 6). The parameters have the values of 00_scope.md section 3; that the reset state
holds its default `IMAGE_SIZE` of 2048 is this model's choice, assumption log 1. -/
def Obligations.ResetStateValues : Prop :=
  State.reset.pc = 0x0000#16 ∧ State.reset.status = { state := .running, cause := .noCause } ∧
  (∀ x, State.reset.readV x = 0x00#8) ∧ (∀ a, State.reset.readImage a = 0x00#8) ∧
  State.reset.cfg = { imageSize := 2048, flagReg := 0xF#4, resetPc := 0x0000#16 }

/-- Reset has the same effect from any state, RUNNING, HALTED or FAULTED: pc takes `RESET_PC`, which is 0x0000 in every
legal configuration, V0 to VF and STATUS take their reset values, the random provider, the parameters and the inputs
are not touched, and the image keeps every byte but the one an honoured write of the image port names
(70_reset_and_hazards.md sections 1 and 2; decisions D3, D10, D13, D14 and D23). That one step is one cycle of reset,
with the inputs as levels held in the state, is this model's reading, assumption logs 4 and 5. -/
def Obligations.ResetFromAnyState : Prop :=
  ∀ s : State, s.pins.rst = true → ∃ t, step s = .next t ∧
    t.pc = s.cfg.resetPc ∧ (s.cfg.wf = true → t.pc = 0x0000#16) ∧ (∀ x, t.readV x = 0x00#8) ∧ t.status = { state := .running, cause := .noCause } ∧
    NoDraw s t ∧ t.cfg = s.cfg ∧ t.pins = s.pins ∧
    ∀ a, s.pins.imgWe = false ∨ s.cfg.imageSize ≤ s.pins.imgAddr.toNat ∨ a ≠ s.pins.imgAddr.toNat →
      t.readImage a = s.readImage a

/-- The first step after reset fetches the bytes at addresses 0 and 1 and runs the instruction they decode to, whatever
the image (70_reset_and_hazards.md section 1) and whatever the state before reset (decision D23). That `rst` is a level
the host lowers between steps is this model's choice, assumption log 4; that the cycle in reset is one step is its
reading, assumption log 5. -/
def Obligations.FirstStepAfterResetRunsWordAtZero : Prop :=
  ∀ s t : State, s.pins.rst = true → s.cfg.wf = true → step s = .next t →
    step (t.drive { t.pins with rst := false }) =
      exec (decode (wordOfBytes (t.readImage 0) (t.readImage 1))) (t.drive { t.pins with rst := false })

/-- The image port: a write in reset below `IMAGE_SIZE` stores its byte and no other; at or above `IMAGE_SIZE`, out of
reset, or without the strobe it is ignored (70_reset_and_hazards.md section 2; decision D14). -/
def Obligations.ImagePortWritesOnlyInReset : Prop :=
  ∀ s t : State, s.Inv → step s = .next t → ∀ a,
    (s.pins.rst = true → s.pins.imgWe = true → s.pins.imgAddr.toNat < s.cfg.imageSize →
      t.readImage a = if a = s.pins.imgAddr.toNat then s.pins.imgWdata else s.readImage a) ∧
    (s.pins.rst = false ∨ s.pins.imgWe = false ∨ s.cfg.imageSize ≤ s.pins.imgAddr.toNat →
      t.readImage a = s.readImage a)

/-- R31: the core reads the image and never writes it. -/
def Obligations.CoreNeverWritesTheImage : Prop :=
  ∀ s t : State, s.pins.rst = false → step s = .next t →
    t.image = s.image ∧ ∀ a, t.readImage a = s.readImage a

/-! ## The invariant -/

/-- The invariant holds of the reset state. -/
def Obligations.InvHoldsAtReset : Prop := State.reset.Inv

/-- Every step keeps the invariant: legal parameters, an image in canonical form and inside its capacity
(20_memory.md section 1), and a legal STATUS pair (10_state.md section 4; decision D10). The canonical form is this
model's own. -/
def Obligations.StepKeepsInv : Prop := ∀ s t : State, s.Inv → step s = .next t → t.Inv

/-- The codes and the bit layout of STATUS (10_state.md section 4; decision D10). -/
def Obligations.StatusCodes : Prop :=
  (∀ t : Status, t.word.extractLsb' 0 2 = t.state.code ∧ t.word.extractLsb' 2 2 = t.cause.code) ∧
  RunState.running.code = 0 ∧ RunState.halted.code = 1 ∧ RunState.faulted.code = 2 ∧
  Cause.noCause.code = 0 ∧ Cause.haltExplicit.code = 1 ∧ Cause.haltUnimplemented.code = 2 ∧
  Cause.fetchOutOfBounds.code = 3

/-! ## Control instructions -/

/-- HALT writes STATUS and nothing else, whatever its ignored bits (40_control.md section HALT; decisions D10, D11). -/
def Obligations.HaltWritesStatusOnly : Prop :=
  ∀ (low : BitVec 12) (s : State),
    exec (.halt low) s = .next { s with status := { state := .halted, cause := .haltExplicit } }

/-- The fallback halts with its own cause and writes nothing else (40_control.md section HALT, R122; decision D10). -/
def Obligations.FallbackWritesStatusOnly : Prop :=
  ∀ (w : Word) (s : State),
    exec (.haltUnimpl w) s = .next { s with status := { state := .halted, cause := .haltUnimplemented } }

/-- The two halts have the same effect on all state except the cause, and both read HALTED (60_exceptions.md section
1, R222; decision D10). -/
def Obligations.HaltsDifferOnlyInCause : Prop :=
  ∀ (low : BitVec 12) (w : Word) (s t u : State), exec (.halt low) s = .next t → exec (.haltUnimpl w) s = .next u →
    t.stateOut = 1 ∧ u.stateOut = 1 ∧
    u = { t with status := { t.status with cause := .haltUnimplemented } }

/-- R123 and R86: JP sets pc to its 12-bit address, zero-extended, at every address and in every state, whatever the
image holds at the target; no register and nothing else changes. The words of primary selector 1 are JP, and their
address is w[11:0]. -/
def Obligations.JumpSetsPcToAddress : Prop :=
  (∀ (addr : Addr12) (s : State), ∃ t, exec (.jp addr) s = .next t ∧ t.pc = addr.setWidth 16 ∧
    t.pc.toNat = addr.toNat ∧ Frame [] s t) ∧
  ∀ w : Word, w.toNat / 4096 = 1 → decode w = .jp (w.extractLsb' 0 12)

/-- SE advances pc by 4 when V[x] equals the immediate and by 2 otherwise, modulo 2^16, and changes nothing else
(40_control.md section SE; decision D9 for the wrap). -/
def Obligations.SkipAdvancesByFourOrTwo : Prop :=
  ∀ (x : Reg) (kk : Imm) (s : State), ∃ t, exec (.se x kk) s = .next t ∧
    (s.readV x = kk → t.pc.toNat = (s.pc.toNat + 4) % 65536) ∧
    (s.readV x ≠ kk → t.pc.toNat = (s.pc.toNat + 2) % 65536) ∧ Frame [] s t

/-! ## Register-immediate instructions -/

/-- LD Vx, byte loads the immediate; with x = 0xF it loads the flags register (41_immediate.md section LD Vx, byte;
decision D6). -/
def Obligations.LoadImmediateWritesOneRegister : Prop :=
  ∀ (x : Reg) (kk : Imm) (s : State), ∃ t, exec (.ldI x kk) s = .next t ∧ t.readV x = kk ∧
    t.pc.toNat = (s.pc.toNat + 2) % 65536 ∧ Frame [x] s t

/-- ADD Vx, byte: the add law, with the whole of VF as carry-in, the flag tested against 0xF without it, and VF
written last (41_immediate.md sections "The add law" and "ADD Vx, byte"; decisions D4, D18). -/
def Obligations.AddImmediateFollowsTheAddLaw : Prop :=
  ∀ (x : Reg) (kk : Imm) (s : State), ∃ t, exec (.addI x kk) s = .next t ∧
    (x ≠ s.vf → (t.readV x).toNat = ((s.readV x).toNat + kk.toNat + (s.readV s.vf).toNat) % 256) ∧
    t.readV s.vf = (if (s.readV x).toNat + kk.toNat > 0xF then 0x01#8 else 0x00#8) ∧
    t.pc.toNat = (s.pc.toNat + 2) % 65536 ∧ Frame [x, s.vf] s t

/-! ## Register-register instructions -/

/-- LD Vx, Vy copies a register (42_alu.md section "LD Vx, Vy"; decisions D6, D15). -/
def Obligations.CopyWritesOneRegister : Prop :=
  ∀ (x y : Reg) (s : State), ∃ t, exec (.ldR x y) s = .next t ∧ t.readV x = s.readV y ∧
    t.pc.toNat = (s.pc.toNat + 2) % 65536 ∧ Frame [x] s t

/-- LD Vx, Vx changes only pc; `LD V0, V0` is the pseudo-instruction NOP (42_alu.md section "LD Vx, Vy"). -/
def Obligations.CopyToItselfChangesOnlyPc : Prop :=
  ∀ (x : Reg) (s : State), exec (.ldR x x) s = .next { s with pc := s.pc + 2 }

/-- OR, AND and XOR combine bit by bit into V[x] and leave VF alone unless it is V[x] (42_alu.md section "OR, AND,
XOR"; decisions D6, D15). -/
def Obligations.LogicWritesOneRegister : Prop :=
  ∀ (x y : Reg) (s : State),
    (∃ t, exec (.orR x y) s = .next t ∧
      (∀ k, (t.readV x).getLsbD k = ((s.readV x).getLsbD k || (s.readV y).getLsbD k)) ∧
      t.pc.toNat = (s.pc.toNat + 2) % 65536 ∧ Frame [x] s t) ∧
    (∃ t, exec (.andR x y) s = .next t ∧
      (∀ k, (t.readV x).getLsbD k = ((s.readV x).getLsbD k && (s.readV y).getLsbD k)) ∧
      t.pc.toNat = (s.pc.toNat + 2) % 65536 ∧ Frame [x] s t) ∧
    (∃ t, exec (.xorR x y) s = .next t ∧
      (∀ k, (t.readV x).getLsbD k = ((s.readV x).getLsbD k != (s.readV y).getLsbD k)) ∧
      t.pc.toNat = (s.pc.toNat + 2) % 65536 ∧ Frame [x] s t)

/-- ADD Vx, Vy: the add law on V[x], V[y] and VF (42_alu.md section "ADD Vx, Vy"; decisions D4, D18). -/
def Obligations.AddRegisterFollowsTheAddLaw : Prop :=
  ∀ (x y : Reg) (s : State), ∃ t, exec (.addR x y) s = .next t ∧
    (x ≠ s.vf → (t.readV x).toNat = ((s.readV x).toNat + (s.readV y).toNat + (s.readV s.vf).toNat) % 256) ∧
    t.readV s.vf = (if (s.readV x).toNat + (s.readV y).toNat > 0xF then 0x01#8 else 0x00#8) ∧
    t.pc.toNat = (s.pc.toNat + 2) % 65536 ∧ Frame [x, s.vf] s t

/-- SUB: V[x] − V[y] modulo 256, VF the NOT of the borrow (42_alu.md section "SUB Vx, Vy"; decision D4). -/
def Obligations.SubWritesDifferenceAndNotBorrow : Prop :=
  ∀ (x y : Reg) (s : State), ∃ t, exec (.sub x y) s = .next t ∧
    (x ≠ s.vf → (t.readV x).toNat = ((s.readV x).toNat + 256 - (s.readV y).toNat) % 256) ∧
    t.readV s.vf = (if (s.readV x).toNat < (s.readV y).toNat then 0x00#8 else 0x01#8) ∧
    t.pc.toNat = (s.pc.toNat + 2) % 65536 ∧ Frame [x, s.vf] s t

/-- SHR: half of V[x], VF the bit shifted out, whatever Y (42_alu.md section "SHR Vx"; decisions D4, D15). -/
def Obligations.ShiftRightHalvesAndKeepsLowBit : Prop :=
  ∀ (x y : Reg) (s : State), ∃ t, exec (.shr x y) s = .next t ∧
    (x ≠ s.vf → (t.readV x).toNat = (s.readV x).toNat / 2) ∧
    (t.readV s.vf).toNat = (s.readV x).toNat % 2 ∧
    t.pc.toNat = (s.pc.toNat + 2) % 65536 ∧ Frame [x, s.vf] s t ∧ ∀ y', exec (.shr x y') s = .next t

/-- SUBN: V[y] − V[x] modulo 256, VF the borrow, which is SUB's polarity reversed (42_alu.md section "SUBN Vx, Vy";
decisions D4, D5, D17). -/
def Obligations.SubnWritesReverseDifferenceAndBorrow : Prop :=
  ∀ (x y : Reg) (s : State), ∃ t, exec (.subn x y) s = .next t ∧
    (x ≠ s.vf → (t.readV x).toNat = ((s.readV y).toNat + 256 - (s.readV x).toNat) % 256) ∧
    t.readV s.vf = (if (s.readV y).toNat < (s.readV x).toNat then 0x01#8 else 0x00#8) ∧
    t.pc.toNat = (s.pc.toNat + 2) % 65536 ∧ Frame [x, s.vf] s t

/-- SHL: twice V[x] modulo 256, VF the raw old bit 7, 0x00 or 0x80, whatever Y (42_alu.md section "SHL Vx"; decisions
D4, D15). -/
def Obligations.ShiftLeftDoublesAndKeepsRawHighBit : Prop :=
  ∀ (x y : Reg) (s : State), ∃ t, exec (.shl x y) s = .next t ∧
    (x ≠ s.vf → (t.readV x).toNat = 2 * (s.readV x).toNat % 256) ∧
    t.readV s.vf = (if 0x80 ≤ (s.readV x).toNat then 0x80#8 else 0x00#8) ∧
    t.pc.toNat = (s.pc.toNat + 2) % 65536 ∧ Frame [x, s.vf] s t ∧ ∀ y', exec (.shl x y') s = .next t

/-- The flag of SHL is the whole carry-in of the next ADD, of either form (42_alu.md section "SHL Vx";
70_reset_and_hazards.md section 3, R270; decision D20). That the flag is in VF for x = VF too is decision D4, and the
sum modulo 256 is decision D18. With z = VF the ADD leaves its own flag there (decision D4), as the statements of the
two ADD forms say. -/
def Obligations.ShiftFlagIsCarryOfNextAdd : Prop :=
  ∀ (x y z z' : Reg) (kk : Imm) (s t : State), z ≠ s.vf → exec (.shl x y) s = .next t →
    let carry := if 0x80 ≤ (s.readV x).toNat then 0x80 else 0
    (∃ u, exec (.addI z kk) t = .next u ∧
      (u.readV z).toNat = ((t.readV z).toNat + kk.toNat + carry) % 256) ∧
    (∃ u, exec (.addR z z') t = .next u ∧
      (u.readV z).toNat = ((t.readV z).toNat + (t.readV z').toNat + carry) % 256)

/-! ## The random instruction -/

/-- RND takes one draw, whatever its value, and writes the drawn byte ANDed with the mask; no bit outside the mask is
ever set (43_random.md; decisions D6, D13). How draws are held in the state is this model's choice, assumption
log 2. -/
def Obligations.RandomWritesMaskedDraw : Prop :=
  ∀ (x : Reg) (kk : Imm) (s : State), ∃ t, exec (.rnd x kk) s = .next t ∧
    t.readV x = s.rndData &&& kk ∧ t.readV x &&& ~~~kk = 0x00#8 ∧
    t.draws = s.draws + 1 ∧ t.rndOffered = s.rndOffered.tail ∧
    t.pc.toNat = (s.pc.toNat + 2) % 65536 ∧ OnlyRegisters [x] s t ∧ SameSurroundings s t

/-- Any byte may come on any draw, whatever the state: the host's provider can offer it (43_random.md section 1;
decision D13). The list of offered bytes is this model's choice, assumption log 2. -/
def Obligations.AnyByteMayBeDrawn : Prop :=
  ∀ (x : Reg) (r : Byte) (s : State), ∃ bs t, exec (.rnd x 0xFF) (s.offerRnd bs) = .next t ∧ t.readV x = r

/-- Exactly one draw happens in a step that executes RND, and none in any other step (43_random.md section 1;
decision D13). That a draw takes the head of the list of offered bytes is this model's choice, assumption log 2, and
that `rnd_take`, read before the step, marks the steps that execute RND is its reading, assumption log 12. -/
def Obligations.OneDrawPerExecutedRnd : Prop :=
  ∀ s t : State, step s = .next t →
    t.draws = s.draws + (if s.rndTake = true then 1 else 0) ∧
    t.rndOffered = (if s.rndTake = true then s.rndOffered.tail else s.rndOffered)

/-- A step that does not execute RND ignores the random input (30_encoding.md section 6). -/
def Obligations.OnlyRndReadsTheRandomInput : Prop :=
  ∀ (s : State) (bs : List Byte) (n : Nat), s.rndTake = false →
    step { s with rndOffered := bs, draws := n } =
      onNext (fun t => { t with rndOffered := bs, draws := n }) (step s)

/-! ## Rules over all instructions -/

/-- Every instruction writes at most its destination and, for the six that have a flag, VF; the image, the inputs and
the parameters are never written, and STATUS only by the two halts (10_state.md sections 1 and 2; decision D6). -/
def Obligations.InstructionsWriteOnlyTheirRegisters : Prop :=
  ∀ (i : Instr) (s : State), ∃ t, exec i s = .next t ∧ OnlyRegisters (i.writes s.vf) s t ∧
    t.image = s.image ∧ (∀ a, t.readImage a = s.readImage a) ∧ t.cfg = s.cfg ∧ t.pins = s.pins ∧
    (i.op ≠ .halt → i.op ≠ .haltUnimpl → t.status = s.status) ∧ (i.op ≠ .rnd → NoDraw s t)

/-- VF changes as a side effect of six instructions only, which leave it 0x00, 0x01 or 0x80; any other instruction
changes it only as its own destination (10_state.md section 2; decisions D4, D5, D6). -/
def Obligations.FlagChangesOnlyInSixInstructions : Prop :=
  ∀ (i : Instr) (s t : State), exec i s = .next t →
    (i.op ∈ [.addI, .addR, .sub, .shr, .subn, .shl] → t.readV s.vf ∈ [0x00#8, 0x01#8, 0x80#8]) ∧
    (i.op ∉ [.addI, .addR, .sub, .shr, .subn, .shl] → i.dest ≠ some s.vf → t.readV s.vf = s.readV s.vf)

/-- The table of the ways pc changes, row for row; an out-of-bounds fetch leaves it at the faulting address
(10_state.md section 3; decisions D8 and D9). -/
def Obligations.ProgramCounterTable : Prop :=
  (∀ (i : Instr) (s t : State), exec i s = .next t →
    (i.op ∈ [.halt, .haltUnimpl] → t.pc = s.pc) ∧
    (∀ addr, i = .jp addr → t.pc.toNat = addr.toNat) ∧
    (∀ x kk, i = .se x kk →
      t.pc.toNat = (if s.readV x = kk then s.pc.toNat + 4 else s.pc.toNat + 2) % 65536) ∧
    (i.op ∉ [.halt, .haltUnimpl, .jp, .se] → t.pc.toNat = (s.pc.toNat + 2) % 65536)) ∧
  ∀ s : State, s.pins.rst = false → s.status.state = .running → s.cfg.imageSize ≤ s.pc.toNat + 1 →
    ∃ t, step s = .next t ∧ t.pc = s.pc

/-- No instruction reads the image as data: only the fetch reaches it (20_memory.md section 1, R50). Nor does one read
`IMAGE_SIZE`, `RESET_PC` or the input signals other than the random byte, which the table of what each instruction reads
does not name (10_state.md section 1). The inputs stand in the state by this model's choice, assumption log 4, and the
parameters by assumption log 1. -/
def Obligations.NoInstructionReadsTheImage : Prop :=
  ∀ (i : Instr) (s : State) (size : Nat) (start : Pc) (m : Memory) (p : Pins),
    let change (t : State) : State :=
      { t with cfg := { t.cfg with imageSize := size, resetPc := start }, image := m, pins := p }
    exec i (change s) = onNext change (exec i s)
end

