-- ==== Sys2Proof/Laws/Config.lean ====
section
/-! SUPPORT. The widths of 00_scope.md R7 as numbers, the bound each gives the values of its type, so that arithmetic
on these values never meets a width by name, and what a legal configuration is. -/

namespace Sys2Proof

@[simp] theorem Config.nreg_eq : Config.nreg = 16 := rfl
@[simp] theorem Config.xlen_eq : Config.xlen = 8 := rfl
@[simp] theorem Config.pclen_eq : Config.pclen = 16 := rfl
@[simp] theorem Config.ilen_eq : Config.ilen = 2 := rfl
@[simp] theorem Config.ilenBits_eq : Config.ilenBits = 16 := rfl
@[simp] theorem Config.addrlen_eq : Config.addrlen = 12 := rfl
@[simp] theorem Config.immlen_eq : Config.immlen = 8 := rfl

/-- `ILEN` is given in bytes and in bits (R7). -/
theorem Config.ilenBits_eq_bytes : Config.ilenBits = 8 * Config.ilen := rfl

theorem Byte.toNat_lt (b : Byte) : b.toNat < 256 := b.isLt
theorem Imm.toNat_lt (kk : Imm) : kk.toNat < 256 := kk.isLt
theorem Word.toNat_lt (w : Word) : w.toNat < 65536 := w.isLt
theorem Pc.toNat_lt (p : Pc) : p.toNat < 65536 := p.isLt
theorem Addr12.toNat_lt (a : Addr12) : a.toNat < 4096 := a.isLt

/-- A legal configuration, clause by clause (R7). -/
theorem Config.wf_iff (c : Config) :
    c.wf = true ↔ 2 ≤ c.imageSize ∧ c.imageSize ≤ 65536 ∧ c.flagReg = 0xF#4 ∧ c.resetPc = 0x0000#16 := by
  simp [Config.wf, and_assoc]

end Sys2Proof
end

