-- ==== Sys2Proof/Laws/Encoding.lean ====
section
/-! SUPPORT. The fields of a word and the words of the encoder as numbers, and what each field of an encoded word
gives back. -/

namespace Sys2Proof

/-! ### Fields as numbers (30_encoding.md R81) -/

theorem toNat_fieldP (w : Word) : (fieldP w).toNat = w.toNat / 4096 := by
  have := Word.toNat_lt w; simp [fieldP, Nat.shiftRight_eq_div_pow]; omega
theorem toNat_fieldX (w : Word) : (fieldX w).toNat = w.toNat / 256 % 16 := by
  simp [fieldX, Nat.shiftRight_eq_div_pow]
theorem toNat_fieldY (w : Word) : (fieldY w).toNat = w.toNat / 16 % 16 := by
  simp [fieldY, Nat.shiftRight_eq_div_pow]
theorem toNat_fieldN (w : Word) : (fieldN w).toNat = w.toNat % 16 := by simp [fieldN]
theorem toNat_fieldKK (w : Word) : (fieldKK w).toNat = w.toNat % 256 := by simp [fieldKK]
theorem toNat_fieldNNN (w : Word) : (fieldNNN w).toNat = w.toNat % 4096 := by simp [fieldNNN]

/-! ### Encoded words as numbers -/

/-- Concatenation is arithmetic: the low part is below the weight of the high part. -/
theorem toNat_append {n m : Nat} (a : BitVec n) (b : BitVec m) : (a ++ b).toNat = a.toNat * 2 ^ m + b.toNat := by
  rw [BitVec.toNat_append, ← Nat.shiftLeft_add_eq_or_of_lt b.isLt, Nat.shiftLeft_eq]

theorem toNat_encodeA (p : BitVec 4) (nnn : BitVec 12) : (encodeA p nnn).toNat = p.toNat * 4096 + nnn.toNat :=
  toNat_append p nnn
theorem toNat_encodeRI (p : BitVec 4) (x : Reg) (kk : Imm) :
    (encodeRI p x kk).toNat = p.toNat * 4096 + x.toNat * 256 + kk.toNat := by
  rw [encodeRI, toNat_append, toNat_append]; simp; omega
theorem toNat_encodeRR (n : BitVec 4) (x y : Reg) :
    (encodeRR n x y).toNat = 0x8000 + x.toNat * 256 + y.toNat * 16 + n.toNat := by
  rw [encodeRR, toNat_append, toNat_append, toNat_append]; simp; omega

/-! ### Fields of encoded words -/

section
variable (p n : BitVec 4) (x y : Reg) (kk : Imm) (nnn : BitVec 12)

@[simp] theorem fieldP_encodeA : fieldP (encodeA p nnn) = p := by
  apply BitVec.eq_of_toNat_eq; rw [toNat_fieldP, toNat_encodeA]; have := nnn.isLt; omega
@[simp] theorem fieldNNN_encodeA : fieldNNN (encodeA p nnn) = nnn := by
  apply BitVec.eq_of_toNat_eq; rw [toNat_fieldNNN, toNat_encodeA]; have := nnn.isLt; omega
@[simp] theorem fieldP_encodeRI : fieldP (encodeRI p x kk) = p := by
  apply BitVec.eq_of_toNat_eq; rw [toNat_fieldP, toNat_encodeRI]; have := x.isLt; have := Imm.toNat_lt kk; omega
@[simp] theorem fieldX_encodeRI : fieldX (encodeRI p x kk) = x := by
  apply BitVec.eq_of_toNat_eq; rw [toNat_fieldX, toNat_encodeRI]; have := x.isLt; have := Imm.toNat_lt kk; omega
@[simp] theorem fieldKK_encodeRI : fieldKK (encodeRI p x kk) = kk := by
  apply BitVec.eq_of_toNat_eq; rw [toNat_fieldKK, toNat_encodeRI]; have := Imm.toNat_lt kk; omega
@[simp] theorem fieldP_encodeRR : fieldP (encodeRR n x y) = 0x8#4 := by
  apply BitVec.eq_of_toNat_eq; rw [toNat_fieldP, toNat_encodeRR]
  have := x.isLt; have := y.isLt; have := n.isLt; simp; omega
@[simp] theorem fieldX_encodeRR : fieldX (encodeRR n x y) = x := by
  apply BitVec.eq_of_toNat_eq; rw [toNat_fieldX, toNat_encodeRR]
  have := x.isLt; have := y.isLt; have := n.isLt; omega
@[simp] theorem fieldY_encodeRR : fieldY (encodeRR n x y) = y := by
  apply BitVec.eq_of_toNat_eq; rw [toNat_fieldY, toNat_encodeRR]
  have := x.isLt; have := y.isLt; have := n.isLt; omega
@[simp] theorem fieldN_encodeRR : fieldN (encodeRR n x y) = n := by
  apply BitVec.eq_of_toNat_eq; rw [toNat_fieldN, toNat_encodeRR]; have := n.isLt; omega

end

/-! ### A word is the concatenation of its fields -/

theorem encodeA_fields (w : Word) : encodeA (fieldP w) (fieldNNN w) = w := by
  apply BitVec.eq_of_toNat_eq; rw [toNat_encodeA, toNat_fieldP, toNat_fieldNNN]; omega
theorem encodeRI_fields (w : Word) : encodeRI (fieldP w) (fieldX w) (fieldKK w) = w := by
  apply BitVec.eq_of_toNat_eq; rw [toNat_encodeRI, toNat_fieldP, toNat_fieldX, toNat_fieldKK]; omega
theorem encodeRR_fields {w : Word} (h : fieldP w = 0x8#4) : encodeRR (fieldN w) (fieldX w) (fieldY w) = w := by
  have hp := congrArg BitVec.toNat h
  rw [toNat_fieldP] at hp
  simp at hp
  apply BitVec.eq_of_toNat_eq; rw [toNat_encodeRR, toNat_fieldN, toNat_fieldX, toNat_fieldY]; omega

/-! ### The masks of the opcode table -/

/-- The mask 0xF000 keeps the primary selector. -/
theorem and_maskP (w : Word) : w &&& 0xF000#16 = encodeA (fieldP w) 0#12 := by
  ext i hi
  have hi' : i < 4 + 12 := hi
  simp only [encodeA, fieldP, BitVec.getElem_and]
  rw [BitVec.getElem_append hi']
  interval_cases i <;> simp [BitVec.getLsbD_eq_getElem]

/-- The mask 0xF00F keeps the primary and the secondary selector. -/
theorem and_maskPN (w : Word) : w &&& 0xF00F#16 = encodeA (fieldP w) ((fieldN w).setWidth 12) := by
  ext i hi
  have hi' : i < 4 + 12 := hi
  simp only [encodeA, fieldP, fieldN, BitVec.getElem_and]
  rw [BitVec.getElem_append hi']
  interval_cases i <;> simp [BitVec.getLsbD_eq_getElem]

/-! ### What the decoder can answer -/

/-- Every answer of the decoder, with the selectors that give it (30_encoding.md R94). -/
inductive Decoded (w : Word) : Instr → Prop where
  | halt (hp : fieldP w = 0x0#4) : Decoded w (.halt (fieldNNN w))
  | jp (hp : fieldP w = 0x1#4) : Decoded w (.jp (fieldNNN w))
  | se (hp : fieldP w = 0x3#4) : Decoded w (.se (fieldX w) (fieldKK w))
  | ldI (hp : fieldP w = 0x6#4) : Decoded w (.ldI (fieldX w) (fieldKK w))
  | addI (hp : fieldP w = 0x7#4) : Decoded w (.addI (fieldX w) (fieldKK w))
  | rnd (hp : fieldP w = 0xC#4) : Decoded w (.rnd (fieldX w) (fieldKK w))
  | ldR (hp : fieldP w = 0x8#4) (hn : fieldN w = 0x0#4) : Decoded w (.ldR (fieldX w) (fieldY w))
  | orR (hp : fieldP w = 0x8#4) (hn : fieldN w = 0x1#4) : Decoded w (.orR (fieldX w) (fieldY w))
  | andR (hp : fieldP w = 0x8#4) (hn : fieldN w = 0x2#4) : Decoded w (.andR (fieldX w) (fieldY w))
  | xorR (hp : fieldP w = 0x8#4) (hn : fieldN w = 0x3#4) : Decoded w (.xorR (fieldX w) (fieldY w))
  | addR (hp : fieldP w = 0x8#4) (hn : fieldN w = 0x4#4) : Decoded w (.addR (fieldX w) (fieldY w))
  | sub (hp : fieldP w = 0x8#4) (hn : fieldN w = 0x5#4) : Decoded w (.sub (fieldX w) (fieldY w))
  | shr (hp : fieldP w = 0x8#4) (hn : fieldN w = 0x6#4) : Decoded w (.shr (fieldX w) (fieldY w))
  | subn (hp : fieldP w = 0x8#4) (hn : fieldN w = 0x7#4) : Decoded w (.subn (fieldX w) (fieldY w))
  | shl (hp : fieldP w = 0x8#4) (hn : fieldN w = 0xE#4) : Decoded w (.shl (fieldX w) (fieldY w))
  | haltUnimpl (h : isFallbackWord w = true) : Decoded w (.haltUnimpl w)

/-- The selectors that no arm of the decoder names are those of R92. -/
theorem isFallbackWord_of_primary {w : Word}
    (h : fieldP w ∉ [0x0#4, 0x1#4, 0x3#4, 0x6#4, 0x7#4, 0x8#4, 0xC#4]) : isFallbackWord w = true := by
  unfold isFallbackWord
  generalize fieldP w = p at h ⊢
  rw [Bool.or_eq_true]
  left
  revert p; decide

theorem isFallbackWord_of_secondary {w : Word} (hp : fieldP w = 0x8#4)
    (h : fieldN w ∉ [0x0#4, 0x1#4, 0x2#4, 0x3#4, 0x4#4, 0x5#4, 0x6#4, 0x7#4, 0xE#4]) : isFallbackWord w = true := by
  unfold isFallbackWord
  rw [hp]
  generalize fieldN w = n at h ⊢
  revert n; decide

theorem decoded_decode (w : Word) : Decoded w (decode w) := by
  unfold decode
  split
  case h_6 hp =>
    unfold decodeAlu
    split
    case h_10 =>
      exact .haltUnimpl (isFallbackWord_of_secondary hp (by simp only [List.mem_cons, List.not_mem_nil]; tauto))
    all_goals first
      | exact .ldR hp (by assumption)
      | exact .orR hp (by assumption)
      | exact .andR hp (by assumption)
      | exact .xorR hp (by assumption)
      | exact .addR hp (by assumption)
      | exact .sub hp (by assumption)
      | exact .shr hp (by assumption)
      | exact .subn hp (by assumption)
      | exact .shl hp (by assumption)
  case h_8 => exact .haltUnimpl (isFallbackWord_of_primary (by simp only [List.mem_cons, List.not_mem_nil]; tauto))
  all_goals first
    | exact .halt (by assumption)
    | exact .jp (by assumption)
    | exact .se (by assumption)
    | exact .ldI (by assumption)
    | exact .addI (by assumption)
    | exact .rnd (by assumption)

/-! ### Stored bytes -/

theorem toNat_wordOfBytes (hi lo : Byte) : (wordOfBytes hi lo).toNat = hi.toNat * 256 + lo.toNat := by
  have h1 := Byte.toNat_lt hi
  have h2 : lo.toNat < 2 ^ 8 := Byte.toNat_lt lo
  have e : (wordOfBytes hi lo).toNat = hi.toNat <<< 8 ||| lo.toNat := by
    simp [wordOfBytes, Nat.shiftLeft_eq, Nat.mod_eq_of_lt (show hi.toNat < 65536 by omega),
      Nat.mod_eq_of_lt (show lo.toNat < 65536 by omega), Nat.mod_eq_of_lt (show hi.toNat * 256 < 65536 by omega)]
  rw [e, ← Nat.shiftLeft_add_eq_or_of_lt h2, Nat.shiftLeft_eq]

theorem toNat_highByte (w : Word) : (highByte w).toNat = w.toNat / 256 := by
  have := Word.toNat_lt w; simp [highByte, Nat.shiftRight_eq_div_pow]; omega
theorem toNat_lowByte (w : Word) : (lowByte w).toNat = w.toNat % 256 := by simp [lowByte]

/-- The two bytes of a word, put together again (20_memory.md R53, R55). -/
@[simp] theorem wordOfBytes_high_low (w : Word) : wordOfBytes (highByte w) (lowByte w) = w := by
  apply BitVec.eq_of_toNat_eq; rw [toNat_wordOfBytes, toNat_highByte, toNat_lowByte]; omega

/-- Byte 0 of a word made of two bytes is the first of them. -/
@[simp] theorem highByte_wordOfBytes (hi lo : Byte) : highByte (wordOfBytes hi lo) = hi := by
  apply BitVec.eq_of_toNat_eq; rw [toNat_highByte, toNat_wordOfBytes]; have := Byte.toNat_lt lo; omega

/-- Byte 1 of a word made of two bytes is the second of them. -/
@[simp] theorem lowByte_wordOfBytes (hi lo : Byte) : lowByte (wordOfBytes hi lo) = lo := by
  apply BitVec.eq_of_toNat_eq; rw [toNat_lowByte, toNat_wordOfBytes]; have := Byte.toNat_lt lo; omega

/-- The front two bytes of a list always decode (30_encoding.md R94, R98). -/
@[simp] theorem decodeBytes_cons (hi lo : Byte) (rest : List Byte) :
    decodeBytes (hi :: lo :: rest) = .ok (decode (wordOfBytes hi lo), rest) := rfl

/-- A word of the opcode table decodes as the word itself. -/
theorem decodeTableWord_eq (nbits w : Nat) :
    decodeTableWord nbits w = some (decode (BitVec.ofNat _ (w % 2 ^ nbits))) := by
  simp [decodeTableWord, tableWordBytes]

end Sys2Proof
end

