-- ==== Sys2Proof/Laws/Memory.lean ====
section
/-! SUPPORT. The laws of the program image: read after write, and that a write keeps the canonical form. -/

namespace Sys2Proof.Machine

/-- Read after write: the written address gives the written byte, every other one what it gave before. -/
theorem Memory.read_write (m : Memory) (a b : Nat) (d : Byte) (h : Memory.wf m = true) :
    Memory.read (Memory.write m a d) b = if b = a then d else Memory.read m b := by
  induction m with
  | nil =>
    by_cases hd : d = Memory.unlisted <;> by_cases hb : b = a <;> simp [Memory.write, Memory.read, hd, hb]
  | cons c m ih =>
    obtain ⟨a', e⟩ := c
    simp only [Memory.wf, Bool.and_eq_true, decide_eq_true_eq, List.all_eq_true] at h
    obtain ⟨⟨-, hlt⟩, hwf⟩ := h
    have absent : ∀ k, k ≤ a' → Memory.read m k = Memory.unlisted := by
      intro k hk
      clear ih hwf
      induction m with
      | nil => rfl
      | cons c m ih =>
        have h1 := hlt c (by simp)
        rw [Memory.read, if_neg (by omega)]
        exact ih (fun x hx => hlt x (by simp [hx]))
    simp only [Memory.write]
    split
    · split
      · by_cases hb : b = a
        · subst hb
          rw [Memory.read, if_neg (by omega), absent b (by omega)]; simp [*]
        · simp [hb]
      · simp [Memory.read]
    · split
      · subst_vars
        split
        · by_cases hb : b = a'
          · subst hb; rw [absent b (by omega)]; simp [*]
          · simp [Memory.read, hb]
        · by_cases hb : b = a' <;> simp [Memory.read, hb]
      · by_cases hb : b = a'
        · subst hb
          simp [Memory.read, show b ≠ a by omega]
        · simp [Memory.read, hb, ih hwf]

/-- A write leaves every other address alone, whatever the form of the list. -/
theorem Memory.read_write_ne (m : Memory) {a b : Nat} (d : Byte) (h : b ≠ a) :
    Memory.read (Memory.write m a d) b = Memory.read m b := by
  induction m with
  | nil => by_cases hd : d = Memory.unlisted <;> simp [Memory.write, Memory.read, hd, h]
  | cons c m ih =>
    obtain ⟨a', e⟩ := c
    simp only [Memory.write]
    split
    · split <;> simp [Memory.read, h]
    · split
      · subst_vars; split <;> simp [Memory.read, h]
      · simp [Memory.read, ih]

theorem Memory.mem_write {m : Memory} {a : Nat} {d : Byte} {c : Host.Cell} (h : c ∈ Memory.write m a d) :
    c = (a, d) ∨ c ∈ m := by
  induction m with
  | nil => by_cases hd : d = Memory.unlisted <;> simp_all [Memory.write]
  | cons x m ih =>
    obtain ⟨b, e⟩ := x
    simp only [Memory.write] at h
    split at h
    · split at h
      · exact .inr h
      · exact List.mem_cons.mp h
    · split at h
      · split at h
        · exact .inr (List.mem_cons_of_mem _ h)
        · exact (List.mem_cons.mp h).imp id (List.mem_cons_of_mem _)
      · rcases List.mem_cons.mp h with h | h
        · exact .inr (h ▸ List.mem_cons_self)
        · exact (ih h).imp id (List.mem_cons_of_mem _)

/-- A write keeps the canonical form. -/
theorem Memory.wf_write {m : Memory} (a : Nat) (d : Byte) (h : Memory.wf m = true) :
    Memory.wf (Memory.write m a d) = true := by
  induction m with
  | nil => by_cases hd : d = Memory.unlisted <;> simp [Memory.write, Memory.wf, hd]
  | cons c m ih =>
    obtain ⟨b, e⟩ := c
    have h' := h
    simp only [Memory.wf, Bool.and_eq_true, decide_eq_true_eq, List.all_eq_true] at h'
    obtain ⟨⟨he, hlt⟩, hwf⟩ := h'
    simp only [Memory.write]
    split
    · split
      · exact h
      · rename_i hab hd
        simp only [Memory.wf, Bool.and_eq_true, decide_eq_true_eq, List.all_eq_true, List.mem_cons]
        refine ⟨⟨hd, ?_⟩, ⟨he, hlt⟩, hwf⟩
        rintro x (rfl | hx)
        · exact hab
        · exact Nat.lt_trans hab (hlt x hx)
    · split
      · subst_vars
        split
        · exact hwf
        · rename_i hd
          simp only [Memory.wf, Bool.and_eq_true, decide_eq_true_eq, List.all_eq_true]
          exact ⟨⟨hd, hlt⟩, hwf⟩
      · simp only [Memory.wf, Bool.and_eq_true, decide_eq_true_eq, List.all_eq_true]
        refine ⟨⟨he, ?_⟩, ih hwf⟩
        intro x hx
        rcases Memory.mem_write hx with rfl | hx
        · show b < a; omega
        · exact hlt x hx

/-- A write below the capacity keeps the image below it. -/
theorem Memory.below_write {n a : Nat} {m : Memory} (d : Byte) (ha : a < n) (h : Memory.below n m = true) :
    Memory.below n (Memory.write m a d) = true := by
  simp only [Memory.below, List.all_eq_true, decide_eq_true_eq] at *
  intro c hc
  rcases Memory.mem_write hc with rfl | hc
  · exact ha
  · exact h c hc

/-- The image of the reset state is in canonical form. -/
theorem Memory.wf_reset : Memory.wf State.reset.image = true := rfl

end Sys2Proof.Machine
end

