-- ==== Sys2Proof/Laws/State.lean ====
section
/-! SUPPORT. What each update of the state does to each field, and to what is read from it. Each is true by
unfolding one definition once, so that no later proof unfolds a record update. -/

namespace Sys2Proof.Machine

variable (s : State)

/-! ### `State.writeV` -/

@[simp] theorem cfg_writeV (x : Reg) (b : Byte) : (s.writeV x b).cfg = s.cfg := rfl
@[simp] theorem pc_writeV (x : Reg) (b : Byte) : (s.writeV x b).pc = s.pc := rfl
@[simp] theorem status_writeV (x : Reg) (b : Byte) : (s.writeV x b).status = s.status := rfl
@[simp] theorem image_writeV (x : Reg) (b : Byte) : (s.writeV x b).image = s.image := rfl
@[simp] theorem pins_writeV (x : Reg) (b : Byte) : (s.writeV x b).pins = s.pins := rfl
@[simp] theorem rndOffered_writeV (x : Reg) (b : Byte) : (s.writeV x b).rndOffered = s.rndOffered := rfl
@[simp] theorem draws_writeV (x : Reg) (b : Byte) : (s.writeV x b).draws = s.draws := rfl
@[simp] theorem readImage_writeV (x : Reg) (b : Byte) (i : Nat) : (s.writeV x b).readImage i = s.readImage i := rfl
@[simp] theorem memRead2_writeV (x : Reg) (b : Byte) (i : Nat) : (s.writeV x b).memRead2 i = s.memRead2 i := rfl

/-! ### `State.setPc` -/

@[simp] theorem cfg_setPc (t : Pc) : (s.setPc t).cfg = s.cfg := rfl
@[simp] theorem v_setPc (t : Pc) : (s.setPc t).v = s.v := rfl
@[simp] theorem pc_setPc (t : Pc) : (s.setPc t).pc = t := rfl
@[simp] theorem status_setPc (t : Pc) : (s.setPc t).status = s.status := rfl
@[simp] theorem image_setPc (t : Pc) : (s.setPc t).image = s.image := rfl
@[simp] theorem pins_setPc (t : Pc) : (s.setPc t).pins = s.pins := rfl
@[simp] theorem rndOffered_setPc (t : Pc) : (s.setPc t).rndOffered = s.rndOffered := rfl
@[simp] theorem draws_setPc (t : Pc) : (s.setPc t).draws = s.draws := rfl
@[simp] theorem readV_setPc (t : Pc) (r : Reg) : (s.setPc t).readV r = s.readV r := rfl
@[simp] theorem readImage_setPc (t : Pc) (i : Nat) : (s.setPc t).readImage i = s.readImage i := rfl
@[simp] theorem memRead2_setPc (t : Pc) (i : Nat) : (s.setPc t).memRead2 i = s.memRead2 i := rfl

/-! ### `State.advance` -/

@[simp] theorem cfg_advance (n : Pc) : (s.advance n).cfg = s.cfg := rfl
@[simp] theorem v_advance (n : Pc) : (s.advance n).v = s.v := rfl
@[simp] theorem pc_advance (n : Pc) : (s.advance n).pc = s.pc + n := rfl
@[simp] theorem status_advance (n : Pc) : (s.advance n).status = s.status := rfl
@[simp] theorem image_advance (n : Pc) : (s.advance n).image = s.image := rfl
@[simp] theorem pins_advance (n : Pc) : (s.advance n).pins = s.pins := rfl
@[simp] theorem rndOffered_advance (n : Pc) : (s.advance n).rndOffered = s.rndOffered := rfl
@[simp] theorem draws_advance (n : Pc) : (s.advance n).draws = s.draws := rfl
@[simp] theorem readV_advance (n : Pc) (r : Reg) : (s.advance n).readV r = s.readV r := rfl
@[simp] theorem readImage_advance (n : Pc) (i : Nat) : (s.advance n).readImage i = s.readImage i := rfl
@[simp] theorem memRead2_advance (n : Pc) (i : Nat) : (s.advance n).memRead2 i = s.memRead2 i := rfl

/-! ### `State.writeImage` -/

@[simp] theorem cfg_writeImage (a : Nat) (d : Byte) : (s.writeImage a d).cfg = s.cfg := rfl
@[simp] theorem v_writeImage (a : Nat) (d : Byte) : (s.writeImage a d).v = s.v := rfl
@[simp] theorem pc_writeImage (a : Nat) (d : Byte) : (s.writeImage a d).pc = s.pc := rfl
@[simp] theorem status_writeImage (a : Nat) (d : Byte) : (s.writeImage a d).status = s.status := rfl
@[simp] theorem image_writeImage (a : Nat) (d : Byte) : (s.writeImage a d).image = Memory.write s.image a d := rfl
@[simp] theorem pins_writeImage (a : Nat) (d : Byte) : (s.writeImage a d).pins = s.pins := rfl
@[simp] theorem rndOffered_writeImage (a : Nat) (d : Byte) : (s.writeImage a d).rndOffered = s.rndOffered := rfl
@[simp] theorem draws_writeImage (a : Nat) (d : Byte) : (s.writeImage a d).draws = s.draws := rfl
@[simp] theorem readV_writeImage (a : Nat) (d : Byte) (r : Reg) : (s.writeImage a d).readV r = s.readV r := rfl

/-! ### `State.stop` -/

@[simp] theorem cfg_stop (st : RunState) (c : Cause) : (s.stop st c).cfg = s.cfg := rfl
@[simp] theorem v_stop (st : RunState) (c : Cause) : (s.stop st c).v = s.v := rfl
@[simp] theorem pc_stop (st : RunState) (c : Cause) : (s.stop st c).pc = s.pc := rfl
@[simp] theorem status_stop (st : RunState) (c : Cause) : (s.stop st c).status = ⟨st, c⟩ := rfl
@[simp] theorem image_stop (st : RunState) (c : Cause) : (s.stop st c).image = s.image := rfl
@[simp] theorem pins_stop (st : RunState) (c : Cause) : (s.stop st c).pins = s.pins := rfl
@[simp] theorem rndOffered_stop (st : RunState) (c : Cause) : (s.stop st c).rndOffered = s.rndOffered := rfl
@[simp] theorem draws_stop (st : RunState) (c : Cause) : (s.stop st c).draws = s.draws := rfl
@[simp] theorem readV_stop (st : RunState) (c : Cause) (r : Reg) : (s.stop st c).readV r = s.readV r := rfl
@[simp] theorem readImage_stop (st : RunState) (c : Cause) (i : Nat) : (s.stop st c).readImage i = s.readImage i := rfl
@[simp] theorem memRead2_stop (st : RunState) (c : Cause) (i : Nat) : (s.stop st c).memRead2 i = s.memRead2 i := rfl

/-! ### `State.halt` -/

@[simp] theorem cfg_halt (c : Cause) : (s.halt c).cfg = s.cfg := rfl
@[simp] theorem v_halt (c : Cause) : (s.halt c).v = s.v := rfl
@[simp] theorem pc_halt (c : Cause) : (s.halt c).pc = s.pc := rfl
@[simp] theorem status_halt (c : Cause) : (s.halt c).status = ⟨.halted, c⟩ := rfl
@[simp] theorem image_halt (c : Cause) : (s.halt c).image = s.image := rfl
@[simp] theorem pins_halt (c : Cause) : (s.halt c).pins = s.pins := rfl
@[simp] theorem rndOffered_halt (c : Cause) : (s.halt c).rndOffered = s.rndOffered := rfl
@[simp] theorem draws_halt (c : Cause) : (s.halt c).draws = s.draws := rfl
@[simp] theorem readV_halt (c : Cause) (r : Reg) : (s.halt c).readV r = s.readV r := rfl
@[simp] theorem readImage_halt (c : Cause) (i : Nat) : (s.halt c).readImage i = s.readImage i := rfl
@[simp] theorem memRead2_halt (c : Cause) (i : Nat) : (s.halt c).memRead2 i = s.memRead2 i := rfl

/-! ### `State.raiseFault` -/

@[simp] theorem cfg_raiseFault (c : Cause) : (s.raiseFault c).cfg = s.cfg := rfl
@[simp] theorem v_raiseFault (c : Cause) : (s.raiseFault c).v = s.v := rfl
@[simp] theorem pc_raiseFault (c : Cause) : (s.raiseFault c).pc = s.pc := rfl
@[simp] theorem status_raiseFault (c : Cause) : (s.raiseFault c).status = ⟨.faulted, c⟩ := rfl
@[simp] theorem image_raiseFault (c : Cause) : (s.raiseFault c).image = s.image := rfl
@[simp] theorem pins_raiseFault (c : Cause) : (s.raiseFault c).pins = s.pins := rfl
@[simp] theorem rndOffered_raiseFault (c : Cause) : (s.raiseFault c).rndOffered = s.rndOffered := rfl
@[simp] theorem draws_raiseFault (c : Cause) : (s.raiseFault c).draws = s.draws := rfl
@[simp] theorem readV_raiseFault (c : Cause) (r : Reg) : (s.raiseFault c).readV r = s.readV r := rfl
@[simp] theorem readImage_raiseFault (c : Cause) (i : Nat) : (s.raiseFault c).readImage i = s.readImage i := rfl
@[simp] theorem memRead2_raiseFault (c : Cause) (i : Nat) : (s.raiseFault c).memRead2 i = s.memRead2 i := rfl

/-! ### `State.assertReset` -/

@[simp] theorem cfg_assertReset : (s.assertReset).cfg = s.cfg := rfl
@[simp] theorem v_assertReset : (s.assertReset).v = Vector.replicate Config.nreg 0x00#8 := rfl
@[simp] theorem pc_assertReset : (s.assertReset).pc = s.cfg.resetPc := rfl
@[simp] theorem status_assertReset : (s.assertReset).status = Status.reset := rfl
@[simp] theorem image_assertReset : (s.assertReset).image = s.image := rfl
@[simp] theorem pins_assertReset : (s.assertReset).pins = s.pins := rfl
@[simp] theorem rndOffered_assertReset : (s.assertReset).rndOffered = s.rndOffered := rfl
@[simp] theorem draws_assertReset : (s.assertReset).draws = s.draws := rfl
@[simp] theorem readImage_assertReset (i : Nat) : (s.assertReset).readImage i = s.readImage i := rfl
@[simp] theorem memRead2_assertReset (i : Nat) : (s.assertReset).memRead2 i = s.memRead2 i := rfl

/-! ### `State.drawRnd` -/

@[simp] theorem cfg_drawRnd : (s.drawRnd).cfg = s.cfg := rfl
@[simp] theorem v_drawRnd : (s.drawRnd).v = s.v := rfl
@[simp] theorem pc_drawRnd : (s.drawRnd).pc = s.pc := rfl
@[simp] theorem status_drawRnd : (s.drawRnd).status = s.status := rfl
@[simp] theorem image_drawRnd : (s.drawRnd).image = s.image := rfl
@[simp] theorem pins_drawRnd : (s.drawRnd).pins = s.pins := rfl
@[simp] theorem rndOffered_drawRnd : (s.drawRnd).rndOffered = s.rndOffered.tail := rfl
@[simp] theorem draws_drawRnd : (s.drawRnd).draws = s.draws + 1 := rfl
@[simp] theorem readV_drawRnd (r : Reg) : (s.drawRnd).readV r = s.readV r := rfl
@[simp] theorem readImage_drawRnd (i : Nat) : (s.drawRnd).readImage i = s.readImage i := rfl
@[simp] theorem memRead2_drawRnd (i : Nat) : (s.drawRnd).memRead2 i = s.memRead2 i := rfl

/-! ### `State.drive` -/

@[simp] theorem cfg_drive (p : Pins) : (s.drive p).cfg = s.cfg := rfl
@[simp] theorem v_drive (p : Pins) : (s.drive p).v = s.v := rfl
@[simp] theorem pc_drive (p : Pins) : (s.drive p).pc = s.pc := rfl
@[simp] theorem status_drive (p : Pins) : (s.drive p).status = s.status := rfl
@[simp] theorem image_drive (p : Pins) : (s.drive p).image = s.image := rfl
@[simp] theorem pins_drive (p : Pins) : (s.drive p).pins = p := rfl
@[simp] theorem rndOffered_drive (p : Pins) : (s.drive p).rndOffered = s.rndOffered := rfl
@[simp] theorem draws_drive (p : Pins) : (s.drive p).draws = s.draws := rfl
@[simp] theorem readV_drive (p : Pins) (r : Reg) : (s.drive p).readV r = s.readV r := rfl
@[simp] theorem readImage_drive (p : Pins) (i : Nat) : (s.drive p).readImage i = s.readImage i := rfl
@[simp] theorem memRead2_drive (p : Pins) (i : Nat) : (s.drive p).memRead2 i = s.memRead2 i := rfl

/-! ### `State.offerRnd` -/

@[simp] theorem cfg_offerRnd (bs : List Byte) : (s.offerRnd bs).cfg = s.cfg := rfl
@[simp] theorem v_offerRnd (bs : List Byte) : (s.offerRnd bs).v = s.v := rfl
@[simp] theorem pc_offerRnd (bs : List Byte) : (s.offerRnd bs).pc = s.pc := rfl
@[simp] theorem status_offerRnd (bs : List Byte) : (s.offerRnd bs).status = s.status := rfl
@[simp] theorem image_offerRnd (bs : List Byte) : (s.offerRnd bs).image = s.image := rfl
@[simp] theorem pins_offerRnd (bs : List Byte) : (s.offerRnd bs).pins = s.pins := rfl
@[simp] theorem rndOffered_offerRnd (bs : List Byte) : (s.offerRnd bs).rndOffered = bs := rfl
@[simp] theorem draws_offerRnd (bs : List Byte) : (s.offerRnd bs).draws = s.draws := rfl
@[simp] theorem readV_offerRnd (bs : List Byte) (r : Reg) : (s.offerRnd bs).readV r = s.readV r := rfl
@[simp] theorem readImage_offerRnd (bs : List Byte) (i : Nat) : (s.offerRnd bs).readImage i = s.readImage i := rfl
@[simp] theorem memRead2_offerRnd (bs : List Byte) (i : Nat) : (s.offerRnd bs).memRead2 i = s.memRead2 i := rfl

/-! ### `State.commit` -/

@[simp] theorem cfg_commit (x : Reg) (res : Byte) : (s.commit x res).cfg = s.cfg := rfl
@[simp] theorem pc_commit (x : Reg) (res : Byte) : (s.commit x res).pc = s.pc + 2 := rfl
@[simp] theorem status_commit (x : Reg) (res : Byte) : (s.commit x res).status = s.status := rfl
@[simp] theorem image_commit (x : Reg) (res : Byte) : (s.commit x res).image = s.image := rfl
@[simp] theorem pins_commit (x : Reg) (res : Byte) : (s.commit x res).pins = s.pins := rfl
@[simp] theorem rndOffered_commit (x : Reg) (res : Byte) : (s.commit x res).rndOffered = s.rndOffered := rfl
@[simp] theorem draws_commit (x : Reg) (res : Byte) : (s.commit x res).draws = s.draws := rfl
@[simp] theorem readImage_commit (x : Reg) (res : Byte) (i : Nat) : (s.commit x res).readImage i = s.readImage i := rfl
@[simp] theorem memRead2_commit (x : Reg) (res : Byte) (i : Nat) : (s.commit x res).memRead2 i = s.memRead2 i := rfl

/-! ### `State.commitFlagged` -/

@[simp] theorem cfg_commitFlagged (x : Reg) (res flag : Byte) : (s.commitFlagged x res flag).cfg = s.cfg := rfl
@[simp] theorem pc_commitFlagged (x : Reg) (res flag : Byte) : (s.commitFlagged x res flag).pc = s.pc + 2 := rfl
@[simp] theorem status_commitFlagged (x : Reg) (res flag : Byte) : (s.commitFlagged x res flag).status = s.status := rfl
@[simp] theorem image_commitFlagged (x : Reg) (res flag : Byte) : (s.commitFlagged x res flag).image = s.image := rfl
@[simp] theorem pins_commitFlagged (x : Reg) (res flag : Byte) : (s.commitFlagged x res flag).pins = s.pins := rfl
@[simp] theorem rndOffered_commitFlagged (x : Reg) (res flag : Byte) : (s.commitFlagged x res flag).rndOffered = s.rndOffered := rfl
@[simp] theorem draws_commitFlagged (x : Reg) (res flag : Byte) : (s.commitFlagged x res flag).draws = s.draws := rfl
@[simp] theorem readImage_commitFlagged (x : Reg) (res flag : Byte) (i : Nat) : (s.commitFlagged x res flag).readImage i = s.readImage i := rfl
@[simp] theorem memRead2_commitFlagged (x : Reg) (res flag : Byte) (i : Nat) : (s.commitFlagged x res flag).memRead2 i = s.memRead2 i := rfl

/-! ### Registers: read after write -/

theorem readV_writeV (x r : Reg) (b : Byte) : (s.writeV x b).readV r = if r = x then b else s.readV r := by
  have hx : x.toNat < 16 := x.isLt
  have hr : r.toNat < 16 := r.isLt
  by_cases h : r = x
  · subst h; simp [State.readV, State.writeV]
  · have : x.toNat ≠ r.toNat := fun e => h (BitVec.eq_of_toNat_eq e.symm)
    simp [State.readV, State.writeV, h, this]

@[simp] theorem readV_writeV_same (x : Reg) (b : Byte) : (s.writeV x b).readV x = b := by
  simp [readV_writeV]

@[simp] theorem readV_writeV_ne {x r : Reg} (b : Byte) (h : r ≠ x) : (s.writeV x b).readV r = s.readV r := by
  simp [readV_writeV, h]

/-- The registers after an instruction that writes one. -/
theorem readV_commit (x r : Reg) (res : Byte) :
    (s.commit x res).readV r = if r = x then res else s.readV r := by
  simp [State.commit, readV_writeV]

/-- The registers after an instruction that writes one and the flag: the flag wins at VF. -/
theorem readV_commitFlagged (x r : Reg) (res flag : Byte) :
    (s.commitFlagged x res flag).readV r = if r = s.vf then flag else if r = x then res else s.readV r := by
  simp [State.commitFlagged, readV_writeV]

@[simp] theorem readV_assertReset (r : Reg) : s.assertReset.readV r = 0x00#8 := by
  simp [State.readV, State.assertReset]

/-- Two states with the same sixteen registers read alike. -/
theorem readV_of_v {s t : State} (h : t.v = s.v) (r : Reg) : t.readV r = s.readV r := by
  simp [State.readV, h]

end Sys2Proof.Machine
end

