-- ==== Sys2Proof/Laws/Ops.lean ====
section
/-! SUPPORT. What the shared operations, the meanings and the step can do, said once: later proofs cite these
instead of unfolding the definitions. -/

namespace Sys2Proof.Machine

/-! ### The arithmetic, in the forms the manual gives beside its pseudocode -/

/-- The add flag compares exact sums (41_immediate.md R142). -/
theorem addFlag_eq (a b : Byte) : addFlag a b = if a.toNat + b.toNat > 0xF then 0x01 else 0x00 := by
  have ha := Byte.toNat_lt a
  have hb := Byte.toNat_lt b
  have h : (widen32 a + widen32 b > 0xF#32) ↔ a.toNat + b.toNat > 0xF := by
    simp [widen32, BitVec.lt_def]; omega
  simp [addFlag, h]

/-- "In both branches res = (a − b) mod 256" (42_alu.md R165). -/
theorem subResult_eq (a b : Byte) : subResult a b = a - b := by
  unfold subResult
  split
  · apply BitVec.eq_of_toNat_eq
    have ha := Byte.toNat_lt a
    have hb := Byte.toNat_lt b
    simp [truncate8, widen16]; omega
  · rfl

/-- The 16-bit difference, truncated, is "(b - a) mod 256" (42_alu.md R167). -/
theorem subnResult_eq (a b : Byte) : subnResult a b = b - a := by
  apply BitVec.eq_of_toNat_eq
  have ha := Byte.toNat_lt a
  have hb := Byte.toNat_lt b
  simp [subnResult, truncate8, widen16]; omega

/-- The sum of the add law as a number (R142). -/
theorem toNat_addResult (a b c : Byte) : (addResult a b c).toNat = (a.toNat + b.toNat + c.toNat) % 256 := by
  simp [addResult]

/-- SUB's difference as a number (R165). -/
theorem toNat_subResult (a b : Byte) : (subResult a b).toNat = (a.toNat + 256 - b.toNat) % 256 := by
  have hb := Byte.toNat_lt b
  rw [subResult_eq, show (a - b).toNat = (256 - b.toNat + a.toNat) % 256 from BitVec.toNat_sub ..]
  omega

/-- SUBN's difference as a number (R167). -/
theorem toNat_subnResult (a b : Byte) : (subnResult a b).toNat = (b.toNat + 256 - a.toNat) % 256 := by
  rw [subnResult_eq, ← subResult_eq, toNat_subResult]

/-! ### What an instruction does to the state -/

/-- The four shapes of a meaning. Every instruction answers a next state, and that state is one of: STATUS alone
written by a halt; pc alone written; one register and pc written, after one draw for RND; one register, VF and pc
written. -/
inductive Effect (i : Instr) (s t : State) : Prop where
  | halts (c : Cause) (hop : i.op.halts = true) (hdest : i.dest = none)
      (hc : c = .haltExplicit ∨ c = .haltUnimplemented) (ht : t = s.halt c)
  | moves (p : Pc) (hop : i.op.halts = false) (hdest : i.dest = none) (ht : t = s.setPc p)
  | writes (x : Reg) (res : Byte) (hop : i.op.halts = false) (hflag : i.op.writesFlag = false)
      (hdest : i.dest = some x) (hrnd : i.op ≠ .rnd) (ht : t = s.commit x res)
  | draws (x : Reg) (res : Byte) (hop : i.op = .rnd) (hdest : i.dest = some x) (ht : t = s.drawRnd.commit x res)
  | flags (x : Reg) (res flag : Byte) (hop : i.op.halts = false) (hflag : i.op.writesFlag = true)
      (hdest : i.dest = some x) (hrnd : i.op ≠ .rnd) (ht : t = s.commitFlagged x res flag)

theorem exec_effect (i : Instr) (s : State) : ∃ t, exec i s = .next t ∧ Effect i s t := by
  cases i with
  | halt low => exact ⟨_, rfl, .halts _ rfl rfl (.inl rfl) rfl⟩
  | haltUnimpl w => exact ⟨_, rfl, .halts _ rfl rfl (.inr rfl) rfl⟩
  | jp a => exact ⟨_, rfl, .moves _ rfl rfl rfl⟩
  | se x kk =>
    refine ⟨_, rfl, ?_⟩
    by_cases h : s.readV x = kk
    · exact .moves (s.pc + 4) rfl rfl (if_pos h)
    · exact .moves (s.pc + 2) rfl rfl (if_neg h)
  | ldI x kk => exact ⟨_, rfl, .writes _ _ rfl rfl rfl nofun rfl⟩
  | ldR x y => exact ⟨_, rfl, .writes _ _ rfl rfl rfl nofun rfl⟩
  | orR x y => exact ⟨_, rfl, .writes _ _ rfl rfl rfl nofun rfl⟩
  | andR x y => exact ⟨_, rfl, .writes _ _ rfl rfl rfl nofun rfl⟩
  | xorR x y => exact ⟨_, rfl, .writes _ _ rfl rfl rfl nofun rfl⟩
  | rnd x kk => exact ⟨_, rfl, .draws _ _ rfl rfl rfl⟩
  | addI x kk => exact ⟨_, rfl, .flags _ _ _ rfl rfl rfl nofun rfl⟩
  | addR x y => exact ⟨_, rfl, .flags _ _ _ rfl rfl rfl nofun rfl⟩
  | sub x y => exact ⟨_, rfl, .flags _ _ _ rfl rfl rfl nofun rfl⟩
  | shr x y => exact ⟨_, rfl, .flags _ _ _ rfl rfl rfl nofun rfl⟩
  | subn x y => exact ⟨_, rfl, .flags _ _ _ rfl rfl rfl nofun rfl⟩
  | shl x y => exact ⟨_, rfl, .flags _ _ _ rfl rfl rfl nofun rfl⟩

/-- If an instruction answers `t`, then `t` has one of the shapes. -/
theorem effect_of_exec {i : Instr} {s t : State} (h : exec i s = .next t) : Effect i s t := by
  obtain ⟨u, hu, he⟩ := exec_effect i s
  rw [h] at hu
  cases hu
  exact he

/-- No shape writes the image, the parameters or the inputs. -/
theorem Effect.fixed {i : Instr} {s t : State} (h : Effect i s t) :
    t.image = s.image ∧ t.cfg = s.cfg ∧ t.pins = s.pins := by
  cases h <;> subst_vars <;> exact ⟨rfl, rfl, rfl⟩

/-! ### What a step can do -/

/-- A step answers a next state: the reset cycle; the fault of an out-of-bounds fetch; the fetched instruction's
effect; or, stopped, the same state. -/
inductive StepEffect (s t : State) : Prop where
  | reset (hrst : s.pins.rst = true) (ht : t = s.resetCycle)
  | fault (hrst : s.pins.rst = false) (hrun : s.status.state = .running) (hf : s.fetchAdmitted = false)
      (ht : t = s.raiseFault .fetchOutOfBounds)
  | run (hrst : s.pins.rst = false) (hrun : s.status.state = .running) (hf : s.fetchAdmitted = true)
      (he : Effect (decode s.fetchWord) s t) (hx : exec (decode s.fetchWord) s = .next t)
  | stays (hrst : s.pins.rst = false) (hrun : s.status.state ≠ .running) (ht : t = s)

theorem step_effect (s : State) : ∃ t, step s = .next t ∧ StepEffect s t := by
  unfold step
  split
  case isTrue h => exact ⟨_, rfl, .reset h rfl⟩
  case isFalse h =>
    have h : s.pins.rst = false := by simpa using h
    split
    case isFalse hr => exact ⟨_, rfl, .stays h hr rfl⟩
    case isTrue hr =>
      split
      case isTrue hf =>
        obtain ⟨t, ht, he⟩ := exec_effect (decode s.fetchWord) s
        exact ⟨t, ht, .run h hr hf he ht⟩
      case isFalse hf => exact ⟨_, rfl, .fault h hr (by simpa using hf) rfl⟩

theorem stepEffect_of_step {s t : State} (h : step s = .next t) : StepEffect s t := by
  obtain ⟨u, hu, he⟩ := step_effect s
  rw [h] at hu
  cases hu
  exact he

/-! ### Runs -/

@[simp] theorem runSteps_zero (s : State) : runSteps 0 s = .next s := rfl

/-- A run is a step and a shorter run. -/
theorem runSteps_succ {s t : State} (k : Nat) (h : step s = .next t) : runSteps (k + 1) s = runSteps k t := by
  have h' : Sys2Proof.core.step s = .next t := h
  simp only [runSteps, Host.Core.run, h']
  rfl

/-! ### The reset cycle -/

@[simp] theorem cfg_portWrite (s : State) : s.portWrite.cfg = s.cfg := by
  unfold State.portWrite; split <;> rfl
@[simp] theorem pins_portWrite (s : State) : s.portWrite.pins = s.pins := by
  unfold State.portWrite; split <;> rfl
@[simp] theorem rndOffered_portWrite (s : State) : s.portWrite.rndOffered = s.rndOffered := by
  unfold State.portWrite; split <;> rfl
@[simp] theorem draws_portWrite (s : State) : s.portWrite.draws = s.draws := by
  unfold State.portWrite; split <;> rfl

/-- What the image port does: one byte, where R266 honours the write. -/
theorem image_portWrite (s : State) :
    s.portWrite.image =
      if s.portWrites = true then Memory.write s.image s.pins.imgAddr.toNat s.pins.imgWdata else s.image := by
  unfold State.portWrite; split <;> rfl

/-- A write that the port honours is below the capacity. -/
theorem lt_of_portWrites {s : State} (h : s.portWrites = true) : s.pins.imgAddr.toNat < s.cfg.imageSize := by
  simp only [State.portWrites, Bool.and_eq_true, decide_eq_true_eq] at h
  exact h.2

/-! ### Placing the next instruction -/

theorem memRead2_storeBytes (s : State) (a : Nat) (hi lo : Byte) (h : Memory.wf s.image = true) :
    (s.storeBytes a [hi, lo]).memRead2 a = wordOfBytes hi lo := by
  simp [State.storeBytes, State.memRead2, State.readImage, Memory.read_write _ _ _ _ (Memory.wf_write a hi h),
    Memory.read_write _ _ _ _ h]

/-- The step after `withFetchWord` runs the instruction of that word. -/
theorem step_withFetchWord (s : State) (nbits w : Nat) (hm : Memory.wf s.image = true)
    (hc : s.cfg.wf = true) :
    step (s.withFetchWord nbits w) = exec (decode (BitVec.ofNat _ (w % 2 ^ nbits))) (s.withFetchWord nbits w) := by
  obtain ⟨hsz, -, -, hpc⟩ := (Config.wf_iff _).mp hc
  have key : ∀ u : State, u.pins.rst = false → u.status.state = .running → u.fetchAdmitted = true →
      Memory.wf u.image = true →
      step (u.storeBytes u.pc.toNat (tableWordBytes nbits w)) =
        exec (decode (BitVec.ofNat _ (w % 2 ^ nbits))) (u.storeBytes u.pc.toNat (tableWordBytes nbits w)) := by
    intro u h1 h2 h3 h4
    have hw : (u.storeBytes u.pc.toNat (tableWordBytes nbits w)).fetchWord = BitVec.ofNat _ (w % 2 ^ nbits) := by
      show (u.storeBytes u.pc.toNat (tableWordBytes nbits w)).memRead2 u.pc.toNat = _
      unfold tableWordBytes
      rw [memRead2_storeBytes _ _ _ _ h4, wordOfBytes_high_low]
    generalize hu : u.storeBytes u.pc.toNat (tableWordBytes nbits w) = t at hw ⊢
    have e1 : t.pins.rst = false := by rw [← hu]; exact h1
    have e2 : t.status.state = .running := by rw [← hu]; exact h2
    have e3 : t.fetchAdmitted = true := by rw [← hu]; exact h3
    simp [step, e1, e2, e3, hw]
  have hreset : (0#16).toNat + 1 < s.cfg.imageSize := by simp; omega
  refine key s.readied ?_ ?_ ?_ ?_ <;> unfold State.readied <;> simp only <;> split <;> split <;>
    simp_all [State.fetchAdmitted, State.setPc, Status.reset]

end Sys2Proof.Machine
end

