-- ==== Sys2Proof/Laws/PerInstr.lean ====
section
/-! SUPPORT. The family Row: the word of every well-formed instruction lies in a row of spec/opcode_table.json that
stands for the instruction's operation. -/

namespace Sys2Proof.Laws.Row

def Statement (i : Instr) : Prop :=
  i.wellFormed = true → ∃ r ∈ opcodeRows, r.op = i.op ∧ r.covers (encode i) = true

/-- A row with mask 0xF000 covers the words with its primary selector. -/
theorem covers_primary {w : Word} {p : BitVec 4} (o : Op) (hp : fieldP w = p) :
    OpcodeRow.covers ⟨o, encodeA p 0#12, 0xF000#16⟩ w = true := by
  simp [OpcodeRow.covers, and_maskP, hp]

/-- A row with mask 0xF00F covers the words with its primary and its secondary selector. -/
theorem covers_secondary {w : Word} {n : BitVec 4} (o : Op) (hp : fieldP w = 0x8#4) (hn : fieldN w = n) :
    OpcodeRow.covers ⟨o, encodeA 0x8#4 (n.setWidth 12), 0xF00F#16⟩ w = true := by
  simp [OpcodeRow.covers, and_maskPN, hp, hn]

theorem halt (low : BitVec 12) : Statement (.halt low) := fun _ =>
  ⟨⟨.halt, encodeA 0x0#4 0#12, 0xF000#16⟩, by decide, rfl, covers_primary _ (fieldP_encodeA _ _)⟩
theorem jp (addr : Addr12) : Statement (.jp addr) := fun _ =>
  ⟨⟨.jp, encodeA 0x1#4 0#12, 0xF000#16⟩, by decide, rfl, covers_primary _ (fieldP_encodeA _ _)⟩
theorem se (x : Reg) (kk : Imm) : Statement (.se x kk) := fun _ =>
  ⟨⟨.se, encodeA 0x3#4 0#12, 0xF000#16⟩, by decide, rfl, covers_primary _ (fieldP_encodeRI _ _ _)⟩
theorem ldI (x : Reg) (kk : Imm) : Statement (.ldI x kk) := fun _ =>
  ⟨⟨.ldI, encodeA 0x6#4 0#12, 0xF000#16⟩, by decide, rfl, covers_primary _ (fieldP_encodeRI _ _ _)⟩
theorem addI (x : Reg) (kk : Imm) : Statement (.addI x kk) := fun _ =>
  ⟨⟨.addI, encodeA 0x7#4 0#12, 0xF000#16⟩, by decide, rfl, covers_primary _ (fieldP_encodeRI _ _ _)⟩
theorem ldR (x y : Reg) : Statement (.ldR x y) := fun _ =>
  ⟨⟨.ldR, encodeA 0x8#4 ((0x0#4).setWidth 12), 0xF00F#16⟩, by decide, rfl,
    covers_secondary _ (fieldP_encodeRR _ _ _) (fieldN_encodeRR _ _ _)⟩
theorem orR (x y : Reg) : Statement (.orR x y) := fun _ =>
  ⟨⟨.orR, encodeA 0x8#4 ((0x1#4).setWidth 12), 0xF00F#16⟩, by decide, rfl,
    covers_secondary _ (fieldP_encodeRR _ _ _) (fieldN_encodeRR _ _ _)⟩
theorem andR (x y : Reg) : Statement (.andR x y) := fun _ =>
  ⟨⟨.andR, encodeA 0x8#4 ((0x2#4).setWidth 12), 0xF00F#16⟩, by decide, rfl,
    covers_secondary _ (fieldP_encodeRR _ _ _) (fieldN_encodeRR _ _ _)⟩
theorem xorR (x y : Reg) : Statement (.xorR x y) := fun _ =>
  ⟨⟨.xorR, encodeA 0x8#4 ((0x3#4).setWidth 12), 0xF00F#16⟩, by decide, rfl,
    covers_secondary _ (fieldP_encodeRR _ _ _) (fieldN_encodeRR _ _ _)⟩
theorem addR (x y : Reg) : Statement (.addR x y) := fun _ =>
  ⟨⟨.addR, encodeA 0x8#4 ((0x4#4).setWidth 12), 0xF00F#16⟩, by decide, rfl,
    covers_secondary _ (fieldP_encodeRR _ _ _) (fieldN_encodeRR _ _ _)⟩
theorem sub (x y : Reg) : Statement (.sub x y) := fun _ =>
  ⟨⟨.sub, encodeA 0x8#4 ((0x5#4).setWidth 12), 0xF00F#16⟩, by decide, rfl,
    covers_secondary _ (fieldP_encodeRR _ _ _) (fieldN_encodeRR _ _ _)⟩
theorem shr (x y : Reg) : Statement (.shr x y) := fun _ =>
  ⟨⟨.shr, encodeA 0x8#4 ((0x6#4).setWidth 12), 0xF00F#16⟩, by decide, rfl,
    covers_secondary _ (fieldP_encodeRR _ _ _) (fieldN_encodeRR _ _ _)⟩
theorem subn (x y : Reg) : Statement (.subn x y) := fun _ =>
  ⟨⟨.subn, encodeA 0x8#4 ((0x7#4).setWidth 12), 0xF00F#16⟩, by decide, rfl,
    covers_secondary _ (fieldP_encodeRR _ _ _) (fieldN_encodeRR _ _ _)⟩
theorem shl (x y : Reg) : Statement (.shl x y) := fun _ =>
  ⟨⟨.shl, encodeA 0x8#4 ((0xE#4).setWidth 12), 0xF00F#16⟩, by decide, rfl,
    covers_secondary _ (fieldP_encodeRR _ _ _) (fieldN_encodeRR _ _ _)⟩
theorem rnd (x : Reg) (kk : Imm) : Statement (.rnd x kk) := fun _ =>
  ⟨⟨.rnd, encodeA 0xC#4 0#12, 0xF000#16⟩, by decide, rfl, covers_primary _ (fieldP_encodeRI _ _ _)⟩
theorem haltUnimpl (w : Word) : Statement (.haltUnimpl w) := by
  intro h
  simp only [Instr.wellFormed, isFallbackWord, Bool.or_eq_true, Bool.and_eq_true, beq_iff_eq,
    List.contains_iff_mem] at h
  rcases h with h | ⟨hp, h⟩
  · refine ⟨⟨.haltUnimpl, encodeA (fieldP w) 0#12, 0xF000#16⟩, ?_, rfl, covers_primary _ rfl⟩
    generalize fieldP w = p at h
    revert p; decide
  · refine ⟨⟨.haltUnimpl, encodeA 0x8#4 ((fieldN w).setWidth 12), 0xF00F#16⟩, ?_, rfl, covers_secondary _ hp rfl⟩
    generalize fieldN w = n at h
    revert n; decide

end Sys2Proof.Laws.Row
end

