-- ==== Sys2Proof/Tests/Slice0.lean ====
section
/-! SUPPORT. The model's own tests. Expected values are from spec/95_test_vectors.md (the vector's id stands in the
test's name or comment) or written out by hand from the encodings of spec/30_encoding.md; none was taken from the
model. -/

namespace Sys2Proof.Tests

open Sys2Proof.Machine

/-- Register 0xF. -/
abbrev VF : Reg := 0xF#4

/-! ## Decoding: one word per constructor, bit by bit from 30_encoding.md R90, with L2.1's argument records -/

theorem test_decode_halt : decodePair 0b0000_101010111100#16 = (.halt, {}) := by decide
theorem test_decode_jp : decodePair 0b0001_101010111100#16 = (.jp, { addr := 0xABC }) := by decide
theorem test_decode_se : decodePair 0b0011_0010_00000101#16 = (.se, { x := 2, imm := 0x05 }) := by decide
theorem test_decode_ldI : decodePair 0b0110_1010_00111100#16 = (.ldI, { x := 0xA, imm := 0x3C }) := by decide
theorem test_decode_addI : decodePair 0b0111_1111_00000101#16 = (.addI, { x := 0xF, imm := 0x05 }) := by decide
theorem test_decode_ldR : decodePair 0b1000_1010_1011_0000#16 = (.ldR, { x := 0xA, y := 0xB }) := by decide
theorem test_decode_orR : decodePair 0b1000_1010_1011_0001#16 = (.orR, { x := 0xA, y := 0xB }) := by decide
theorem test_decode_andR : decodePair 0b1000_1010_1011_0010#16 = (.andR, { x := 0xA, y := 0xB }) := by decide
theorem test_decode_xorR : decodePair 0b1000_1010_1011_0011#16 = (.xorR, { x := 0xA, y := 0xB }) := by decide
theorem test_decode_addR : decodePair 0b1000_1010_1011_0100#16 = (.addR, { x := 0xA, y := 0xB }) := by decide
theorem test_decode_sub : decodePair 0b1000_1010_1011_0101#16 = (.sub, { x := 0xA, y := 0xB }) := by decide
theorem test_decode_shr : decodePair 0b1000_1010_1011_0110#16 = (.shr, { x := 0xA, y := 0xB }) := by decide
theorem test_decode_subn : decodePair 0b1000_1010_1011_0111#16 = (.subn, { x := 0xA, y := 0xB }) := by decide
theorem test_decode_shl : decodePair 0b1000_1010_1011_1110#16 = (.shl, { x := 0xA, y := 0xB }) := by decide
theorem test_decode_rnd : decodePair 0b1100_0011_11111111#16 = (.rnd, { x := 3, imm := 0xFF }) := by decide
theorem test_decode_fallback_primary : decode 0b0010_101010111100#16 = .haltUnimpl 0x2ABC := by decide
theorem test_decode_fallback_secondary :
    [0x8AB8#16, 0x8AB9#16, 0x8ABA#16, 0x8ABB#16, 0x8ABC#16, 0x8ABD#16, 0x8ABF#16].all
      (fun w => decodePair w == (.haltUnimpl, {})) = true := by decide
/-- L2.1's other fallback words. -/
theorem test_decode_fallback_words :
    [0x4A12#16, 0x5AB0#16, 0x9AB0#16, 0xA123#16, 0xB123#16, 0xDAB5#16, 0xEA9E#16, 0xFA07#16, 0xFFFF#16].all
      (fun w => decode w == .haltUnimpl w) = true := by decide
/-- CHIP-8's CLS and RET are explicit halts here (30_encoding.md R97). -/
theorem test_decode_cls_ret : (decode 0x00E0#16).op = .halt ∧ (decode 0x00EE#16).op = .halt := by decide

/-- L1-8: the X and Y nibbles come back. -/
theorem test_encode_sub : encode (.sub 0xA 0xB) = 0x8AB5#16 := by decide
theorem test_encodeBytes_ldI : encodeBytes (.ldI 1 0xAB) = [0x61, 0xAB] := by decide
theorem test_decodeBytes_truncated : decodeBytes [0x61] = .error .truncated := by rfl
theorem test_decodeTableWord : decodeTableWord 16 0x61AB = some (.ldI 1 0xAB) := by decide

/-! ## Well-formedness: an ill-formed term for each check -/

theorem smoke_fallback_word_of_jp : (Instr.haltUnimpl 0x1ABC#16).wellFormed = false := by decide
theorem smoke_fallback_word_of_shl : (Instr.haltUnimpl 0x8ABE#16).wellFormed = false := by decide
theorem smoke_args_halt : Args.wellFormedFor .halt { imm := 1 } = false := by decide
theorem smoke_args_haltUnimpl : Args.wellFormedFor .haltUnimpl { addr := 1 } = false := by decide
theorem smoke_args_jp : Args.wellFormedFor .jp { addr := 5, x := 1 } = false := by decide
theorem smoke_args_register_immediate : Args.wellFormedFor .se { y := 1 } = false := by decide
theorem smoke_args_register_register : Args.wellFormedFor .sub { imm := 1 } = false := by decide
theorem smoke_config_too_small : Config.wf { imageSize := 1 } = false := by decide
theorem smoke_config_too_large : Config.wf { imageSize := 65537 } = false := by decide
theorem smoke_config_flag_register : Config.wf { flagReg := 0xE } = false := by decide
theorem smoke_config_reset_pc : Config.wf { resetPc := 2 } = false := by decide
theorem smoke_memory_not_rising : Memory.wf [(4, 1#8), (3, 1#8)] = false := by decide
theorem smoke_memory_lists_zero : Memory.wf [(4, 0#8)] = false := by decide
theorem smoke_memory_above_capacity : Memory.below 2048 [(2048, 1#8)] = false := by decide
theorem smoke_status_pair : Status.legal { state := .running, cause := .haltExplicit } = false := by decide

/-! ## One step per instruction -/

/-- L2's state before: pc = 0x0200, the listed registers set, everything else as after reset. -/
def before (vs : List (Reg × Byte)) : State :=
  vs.foldl (fun s p => s.writeV p.1 p.2) (State.reset.setPc 0x0200#16)

/-- The state after one step on the word. -/
def after (w : Nat) (s : State) : Option State :=
  match step (s.withFetchWord 16 w) with
  | .next t => some t
  | _ => none

/-- V[x] and VF after one step on the word, from `before vs`. -/
def regsAfter (w : Nat) (vs : List (Reg × Byte)) (x : Reg) : Option (Byte × Byte) :=
  (after w (before vs)).map fun t => (t.readV x, t.readV VF)

/-- pc and STATUS after one step on the word. -/
def pcAfter (w : Nat) (s : State) : Option (Word × Status) := (after w s).map fun t => (t.pc, t.status)

/-- RUNNING, no cause. -/
def ok : Status := Status.reset

theorem test_halt_CT_1 : pcAfter 0x0000 (before []) = some (0x0200, ⟨.halted, .haltExplicit⟩) := by decide
theorem test_halt_CT_2 : pcAfter 0x00EE (before []) = some (0x0200, ⟨.halted, .haltExplicit⟩) := by decide
theorem test_fallback_CT_3 : pcAfter 0x2ABC (before []) = some (0x0200, ⟨.halted, .haltUnimplemented⟩) := by decide
theorem test_fallback_CT_4 : pcAfter 0x812F (before []) = some (0x0200, ⟨.halted, .haltUnimplemented⟩) := by decide
theorem test_jp_L1_2 : pcAfter 0x1ABC (before []) = some (0x0ABC, ok) := by decide
theorem test_jp_odd_CT_7 : pcAfter 0x1003 (before []) = some (0x0003, ok) := by decide
theorem test_se_taken_L1_3 : pcAfter 0x3205 (before [(2, 0x05)]) = some (0x0204, ok) := by decide
theorem test_se_not_taken_L1_4 : pcAfter 0x3205 (before [(2, 0x04)]) = some (0x0202, ok) := by decide
theorem test_ldI_L1_5 : regsAfter 0x6A3C [] 0xA = some (0x3C, 0x00) := by decide
theorem test_ldI_LDI_2 : regsAfter 0x6F80 [(VF, 0x01)] VF = some (0x80, 0x80) := by decide
theorem test_addI_ADDI_6 : regsAfter 0x73FF [(3, 0xFF), (VF, 0x01)] 3 = some (0xFF, 0x01) := by decide
theorem test_addI_ADDI_9 : regsAfter 0x7F05 [(VF, 0x01)] VF = some (0x00, 0x00) := by decide
theorem test_ldR_LDR_1 : regsAfter 0x8120 [(1, 0x07), (2, 0x99)] 1 = some (0x99, 0x00) := by decide
theorem test_ldR_LDR_3 : regsAfter 0x8F10 [(1, 0x80)] VF = some (0x80, 0x80) := by decide
theorem test_or_OR_1 : regsAfter 0x8121 [(1, 0x0F), (2, 0xF0), (VF, 0x01)] 1 = some (0xFF, 0x01) := by decide
theorem test_and_AND_1 : regsAfter 0x8122 [(1, 0x3C), (2, 0x0F)] 1 = some (0x0C, 0x00) := by decide
theorem test_xor_XOR_1 : regsAfter 0x8123 [(1, 0xFF), (2, 0x0F)] 1 = some (0xF0, 0x00) := by decide
theorem test_xor_XOR_2 : regsAfter 0x8113 [(1, 0xA5), (VF, 0x01)] 1 = some (0x00, 0x01) := by decide
theorem test_addR_L1_6 : regsAfter 0x8124 [(1, 0x02), (2, 0x03), (VF, 0x01)] 1 = some (0x06, 0x00) := by decide
theorem test_addR_ADDR_6 : regsAfter 0x81F4 [(1, 0x03), (VF, 0x0D)] 1 = some (0x1D, 0x01) := by decide
theorem test_sub_L1_7 : regsAfter 0x8125 [(1, 0x01), (2, 0x02)] 1 = some (0xFF, 0x00) := by decide
theorem test_sub_SUB_7 : regsAfter 0x81F5 [(1, 0x10), (VF, 0x01)] 1 = some (0x0F, 0x01) := by decide
theorem test_shr_SHR_4 : regsAfter 0x8456 [(4, 0xFF), (5, 0x77)] 4 = some (0x7F, 0x01) := by decide
theorem test_shr_SHR_5 : regsAfter 0x8F06 [(VF, 0x03)] VF = some (0x01, 0x01) := by decide
theorem test_subn_SUBN_2 : regsAfter 0x8127 [(1, 0x02), (2, 0x01)] 1 = some (0xFF, 0x01) := by decide
theorem test_subn_SUBN_3 : regsAfter 0x8127 [(1, 0x05), (2, 0x05), (VF, 0x01)] 1 = some (0x00, 0x00) := by decide
theorem test_shl_SHL_1 : regsAfter 0x840E [(4, 0x81)] 4 = some (0x02, 0x80) := by decide
theorem test_shl_SHL_6 : regsAfter 0x8F0E [(VF, 0x01)] VF = some (0x00, 0x00) := by decide

theorem test_rnd_RND_1 :
    (after 0xC00F ((before []).offerRnd [0x5A])).map (fun t => (t.readV 0, t.draws, t.rndOffered)) =
      some (0x0A, 1, []) := by decide
/-- RND-2: a mask of 0x00 gives 0x00 whatever the byte, here a free value, and the draw is still taken. -/
theorem test_rnd_RND_2 :
    ∃ t, exec (decode 0xC000) (before []) = .next t ∧ t.readV 0 = 0x00 ∧ t.draws = 1 :=
  ⟨_, rfl, by rw [readV_commit]; exact BitVec.and_zero, rfl⟩
theorem test_rnd_take_RND_2 : ((before []).withFetchWord 16 0xC000).rndTake = true := by decide

/-! ## Fetch, wrap and the boot sequence -/

/-- A block with the largest image, and pc as given. -/
def wide (pc : Word) : State := { State.reset with cfg := { imageSize := 65536 }, pc := pc }

/-- pc and STATUS after one step with nothing loaded, at the given pc and `IMAGE_SIZE`. -/
def pcAfterNoLoad (pc : Word) (size : Nat) : Option (Word × Status) :=
  match step { State.reset with cfg := { imageSize := size }, pc := pc } with
  | .next t => some (t.pc, t.status)
  | _ => none

theorem test_fetch_FE_2 : pcAfterNoLoad 0x07FF 2048 = some (0x07FF, ⟨.faulted, .fetchOutOfBounds⟩) := by decide
theorem test_fetch_FE_7 : pcAfterNoLoad 0xFFFF 65536 = some (0xFFFF, ⟨.faulted, .fetchOutOfBounds⟩) := by decide
theorem test_wrap_FE_5 : pcAfter 0x6001 (wide 0xFFFE) = some (0x0000, ok) := by decide
theorem test_wrap_FE_6 : pcAfter 0x3000 (wide 0xFFFE) = some (0x0002, ok) := by decide
/-- FE-8: an odd pc fetches bytes 3 and 4. -/
theorem test_fetch_odd_FE_8 :
    (((State.reset.writeImage 3 0x61).writeImage 4 0xAB).setPc 0x0003).fetchWord = 0x61AB := by decide
/-- R267: the host writes `60 07` through the image port in reset, releases it, and the first step runs LD V0, 7. -/
theorem test_boot :
    (match runDriven [{ rst := true, imgWe := true, imgAddr := 0, imgWdata := 0x60 },
        { rst := true, imgWe := true, imgAddr := 1, imgWdata := 0x07 }, {}] State.reset with
      | .next t => some (t.readV 0, t.pc) | _ => none) = some (0x07, 0x0002) := by decide
/-- R266 (c): the same writes out of reset are ignored. -/
theorem test_port_ignored_while_running :
    (match runDriven [{ imgWe := true, imgAddr := 9, imgWdata := 0x60 }] State.reset with
      | .next t => some t.image | _ => none) = some [] := by decide
theorem test_status_word : Status.word ⟨.faulted, .fetchOutOfBounds⟩ = 0b1110#4 := by decide
theorem test_assemble_shr_one_operand : assemble [] (.shr 4 none) = some 0x8406#16 := by decide
theorem test_assemble_byte_range : assemble [] (.ldI 0 256) = none := by decide

/-- P1's `ADD V0, 0x01`, and the same line in small letters with a decimal operand. -/
theorem test_parse_add :
    parseLine ['A', 'D', 'D', ' ', 'V', '0', ',', ' ', '0', 'x', '0', '1'] = some (.addI 0 1) ∧
      parseLine ['a', 'd', 'd', ' ', 'v', '0', ',', ' ', '1'] = some (.addI 0 1) := by decide
theorem test_parse_dw :
    (parseLine ['D', 'W', ' ', '0', 'x', 'F', 'F', 'F', 'F']).bind (assemble []) = some 0xFFFF#16 := by decide

/-! ## Witnesses: states and operands that meet the hypotheses of each statement -/

/-- The reset state with one instruction word at its pc. -/
def loaded (w : Nat) : State := State.reset.withFetchWord 16 w

/-- A FAULTED state that the host holds in reset, with a write on the image port. -/
def inReset (addr : BitVec 16) : State :=
  (State.reset.raiseFault .fetchOutOfBounds).drive
    { rst := true, imgWe := true, imgAddr := addr, imgWdata := 0x60 }

theorem witness_DecodeOfEncodeIsIdentity : (Instr.haltUnimpl 0x2ABC#16).wellFormed = true := by decide
theorem witness_StoredInstructionIsTwoBytes : (Instr.haltUnimpl 0x8AB8#16).wellFormed = true := by decide
theorem witness_OpcodeRowsDecideTheOperation :
    (⟨.sub, 0x8005#16, 0xF00F#16⟩ : OpcodeRow) ∈ opcodeRows ∧
      OpcodeRow.covers ⟨.sub, 0x8005#16, 0xF00F#16⟩ 0x8FF5#16 = true := by decide
theorem witness_RegisterFieldsNeverSelectTheOperation :
    (0x8FF5#16).toNat / 4096 = 8 ∧ (0x8005#16).toNat / 4096 = 8 ∧
      (0x8FF5#16).toNat % 16 = (0x8005#16).toNat % 16 := by decide
/-- One word for each clause, operand fields at their largest values. -/
theorem witness_ArgumentsComeFromTheirFields :
    (decode 0x0FFF#16).op = .halt ∧ (decode 0x1FFF#16).op = .jp ∧ (decode 0x7FFF#16).op = .addI ∧
      (decode 0x8FF7#16).op = .subn := by decide
/-- Operands on both sides of each bound, a label that resolves and one that does not, and the words of the two at the
bound: JP 0xFFF and RND VF, 0xFF. -/
theorem witness_AssembledLinesDecodeBack :
    assemble [] (.jp (.number 4095)) = some 0x1FFF#16 ∧ assemble [] (.jp (.number 4096)) = none ∧
      assemble [] (.rnd 0xF 255) = some 0xCFFF#16 ∧ assemble [] (.rnd 0xF 256) = none ∧
      List.lookup "end" [("end", 4095)] = some 4095 ∧ List.lookup "start" [("end", 4095)] = none ∧
      assembleInstr [] (.rnd 0xF 255) = some (.rnd 0xF 0xFF) := by decide
theorem witness_StepRunsTheDecodedInstruction :
    let s := (State.reset.setPc 0x07FE).withFetchWord 16 0x8FF5
    s.pins.rst = false ∧ s.status.state = .running ∧ s.pc.toNat + 1 < s.cfg.imageSize ∧
      decode (wordOfBytes (s.readImage 0x07FE) (s.readImage 0x07FF)) = .sub 0xF 0xF := by decide
theorem witness_FetchOutOfBoundsFaults :
    let s := State.reset.setPc 0x07FF
    s.pins.rst = false ∧ s.status.state = .running ∧ s.cfg.imageSize ≤ s.pc.toNat + 1 := by decide
/-- The three ends of a run, each met with both clauses: the explicit halt that the reset state runs, the fallback, and
the out-of-bounds fetch at the last byte of the image. -/
theorem witness_RunEndsExactlyAtHaltOrFault :
    (State.reset.pins.rst = false ∧ State.reset.status.state = .running ∧
      step State.reset = .next (State.reset.halt .haltExplicit) ∧
      (State.reset.halt .haltExplicit).status.state ≠ .running) ∧
    ((loaded 0x2ABC).pins.rst = false ∧ (loaded 0x2ABC).status.state = .running ∧
      step (loaded 0x2ABC) = .next ((loaded 0x2ABC).halt .haltUnimplemented) ∧
      ((loaded 0x2ABC).halt .haltUnimplemented).status.state ≠ .running) ∧
    ((State.reset.setPc 0x07FF).pins.rst = false ∧ (State.reset.setPc 0x07FF).status.state = .running ∧
      step (State.reset.setPc 0x07FF) = .next ((State.reset.setPc 0x07FF).raiseFault .fetchOutOfBounds) ∧
      ((State.reset.setPc 0x07FF).raiseFault .fetchOutOfBounds).status.state ≠ .running) :=
  ⟨⟨rfl, rfl, rfl, by decide⟩, ⟨rfl, rfl, rfl, by decide⟩, ⟨rfl, rfl, rfl, by decide⟩⟩
theorem witness_StoppedStaysStopped :
    (State.reset.halt .haltExplicit).pins.rst = false ∧ (State.reset.halt .haltExplicit).status.state ≠ .running := by
  decide
theorem witness_JumpToSelfNeverEnds :
    let s := (State.reset.setPc 0x07FE).withFetchWord 16 0x17FE
    s.pins.rst = false ∧ s.status.state = .running ∧ s.pc.toNat + 1 < s.cfg.imageSize ∧
      decode s.fetchWord = .jp 0x7FE ∧ (0x7FE#12).toNat = s.pc.toNat := by decide
theorem witness_JumpOutOfImageFaultsAtNextFetch :
    let s := loaded 0x17FF
    s.pins.rst = false ∧ s.status.state = .running ∧ s.pc.toNat + 1 < s.cfg.imageSize ∧
      decode s.fetchWord = .jp 0x7FF ∧ s.cfg.imageSize ≤ (0x7FF#12).toNat + 1 := by decide
theorem witness_SkippedWordIsNeverRead :
    let s := loaded 0x3F00
    s.pins.rst = false ∧ s.status.state = .running ∧ s.pc.toNat + 1 < s.cfg.imageSize ∧
    decode s.fetchWord = .se 0xF 0x00 ∧ s.readV 0xF = 0x00 ∧
    ∀ a, a ≠ s.pc.toNat + 2 → a ≠ s.pc.toNat + 3 →
      Memory.read (Memory.write s.image 2 0xFF) a = s.readImage a := by
  refine ⟨by decide, by decide, by decide, by decide, by decide, fun a h _ => ?_⟩
  have h2 : a ≠ 2 := h
  rw [Memory.read_write _ _ _ _ (by decide), if_neg h2]
  rfl
/-- A legal configuration in reset, and each way an address is kept: no strobe, a write at the first address past the
image, and the address beside the one that an honoured write names. -/
theorem witness_ResetFromAnyState :
    (inReset 0).pins.rst = true ∧ (inReset 0).cfg.wf = true ∧
      ({ inReset 0 with pins := { rst := true } } : State).pins.imgWe = false ∧
      (inReset 0x0800).pins.rst = true ∧ (inReset 0x0800).cfg.imageSize ≤ (inReset 0x0800).pins.imgAddr.toNat ∧
      0x07FE ≠ (inReset 0x07FF).pins.imgAddr.toNat := by decide
theorem witness_FirstStepAfterResetRunsWordAtZero :
    (inReset 0).pins.rst = true ∧ (inReset 0).cfg.wf = true ∧ step (inReset 0) = .next (inReset 0).resetCycle :=
  ⟨rfl, rfl, rfl⟩
/-- The clauses at the last address of the image, at the first one past it, and out of reset. -/
theorem witness_ImagePortWritesOnlyInReset :
    (inReset 0x07FF).Inv ∧ step (inReset 0x07FF) = .next (inReset 0x07FF).resetCycle ∧
      (inReset 0x07FF).pins.imgAddr.toNat < (inReset 0x07FF).cfg.imageSize ∧
      (inReset 0x0800).cfg.imageSize ≤ (inReset 0x0800).pins.imgAddr.toNat ∧ State.reset.pins.rst = false := by
  refine ⟨?_, rfl, by decide, by decide, rfl⟩
  unfold State.Inv
  decide
theorem witness_CoreNeverWritesTheImage :
    (loaded 0x6001).pins.rst = false ∧ step (loaded 0x6001) = .next ((loaded 0x6001).commit 0 0x01) := ⟨rfl, rfl⟩
theorem witness_StepKeepsInv :
    (loaded 0x6001).Inv ∧ step (loaded 0x6001) = .next ((loaded 0x6001).commit 0 0x01) := by
  refine ⟨?_, rfl⟩
  unfold State.Inv
  decide
theorem witness_HaltsDifferOnlyInCause :
    exec (.halt 0xFFF) State.reset = .next (State.reset.halt .haltExplicit) ∧
      exec (.haltUnimpl 0xFFFF) State.reset = .next (State.reset.halt .haltUnimplemented) := ⟨rfl, rfl⟩
theorem witness_JumpSetsPcToAddress : (0x1FFF#16).toNat / 4096 = 1 := by decide
theorem witness_SkipAdvancesByFourOrTwo :
    (wide 0xFFFE).readV 0xF = 0x00 ∧ (wide 0xFFFE).readV 0xF ≠ 0x01 := by decide
/-- Operands at the boundaries of the flag tests. -/
def flagOperands : State := before [(0xE, 0x0F), (1, 0x00), (2, 0x01), (3, 0x80)]

/-- For every statement about a flag-writing instruction: the destination is another register, and both outcomes of
each test are met at their boundary values. -/
theorem witness_flag_statements :
    (0xE : Reg) ≠ flagOperands.vf ∧
      ¬ (flagOperands.readV 0xE).toNat + (flagOperands.readV 1).toNat > 0xF ∧
      (flagOperands.readV 0xE).toNat + (flagOperands.readV 2).toNat > 0xF ∧
      ¬ (flagOperands.readV 0xE).toNat < (flagOperands.readV 0xE).toNat ∧
      (flagOperands.readV 1).toNat < (flagOperands.readV 2).toNat ∧
      ¬ 0x80 ≤ (flagOperands.readV 0xE).toNat ∧ 0x80 ≤ (flagOperands.readV 3).toNat := by decide
/-- SHL of another register and SHL of VF itself, with bit 7 set; the ADD's destination is not VF. -/
theorem witness_ShiftFlagIsCarryOfNextAdd :
    (0xE : Reg) ≠ (before [(1, 0x80)]).vf ∧
      exec (.shl 1 0) (before [(1, 0x80)]) = .next ((before [(1, 0x80)]).commitFlagged 1 0x00 0x80) ∧
      (0xE : Reg) ≠ (before [(VF, 0x80)]).vf ∧
      exec (.shl VF 0) (before [(VF, 0x80)]) = .next ((before [(VF, 0x80)]).commitFlagged VF 0x00 0x80) :=
  ⟨by decide, rfl, by decide, rfl⟩
theorem witness_OneDrawPerExecutedRnd :
    step ((loaded 0xC0FF).offerRnd [0x5A]) = .next (((loaded 0xC0FF).offerRnd [0x5A]).drawRnd.commit 0 0x5A) ∧
      ((loaded 0xC0FF).offerRnd [0x5A]).rndTake = true ∧ State.reset.rndTake = false := ⟨rfl, by decide, by decide⟩
theorem witness_OnlyRndReadsTheRandomInput : State.reset.rndTake = false := by decide
theorem witness_InstructionsWriteOnlyTheirRegisters :
    (Instr.ldI 0xF 0xFF).op ≠ .halt ∧ (Instr.ldI 0xF 0xFF).op ≠ .haltUnimpl ∧ (Instr.ldI 0xF 0xFF).op ≠ .rnd := by
  decide
theorem witness_FlagChangesOnlyInSixInstructions :
    exec (.shl 0xF 0) State.reset = .next (State.reset.commitFlagged 0xF 0x00 0x00) ∧
      (Instr.shl 0xF 0).op ∈ [Op.addI, .addR, .sub, .shr, .subn, .shl] ∧
      exec (.ldI 0xE 0xFF) State.reset = .next (State.reset.commit 0xE 0xFF) ∧
      (Instr.ldI 0xE 0xFF).op ∉ [Op.addI, .addR, .sub, .shr, .subn, .shl] ∧ (Instr.ldI 0xE 0xFF).dest ≠ some State.reset.vf :=
  ⟨rfl, by decide, rfl, by decide, by decide⟩
theorem witness_ProgramCounterTable :
    exec (.halt 0xFFF) (wide 0xFFFE) = .next ((wide 0xFFFE).halt .haltExplicit) ∧
      exec (.jp 0xFFF) (wide 0xFFFE) = .next ((wide 0xFFFE).setPc 0x0FFF) ∧
      exec (.se 0xF 0x00) (wide 0xFFFE) = .next ((wide 0xFFFE).advance 4) ∧
      exec (.ldI 0xF 0x00) (wide 0xFFFE) = .next ((wide 0xFFFE).commit 0xF 0x00) ∧
      (wide 0xFFFF).pins.rst = false ∧ (wide 0xFFFF).status.state = .running ∧
      (wide 0xFFFF).cfg.imageSize ≤ (wide 0xFFFF).pc.toNat + 1 := ⟨rfl, rfl, rfl, rfl, rfl, rfl, by decide⟩

end Sys2Proof.Tests
end

section
/-! Proofs about the program image: what the core leaves unchanged in it (20_memory.md). -/

namespace Sys2Proof.Machine

/-- Reading goes through the image alone, so states with the same image read alike. -/
theorem readImage_of_image {s t : State} (h : t.image = s.image) (a : Nat) : t.readImage a = s.readImage a := by
  simp [State.readImage, h]

/-- Out of reset no step reaches the image port, the model's only writer of the image. -/
theorem StepEffect.image_of_not_rst {s t : State} (he : StepEffect s t) (hrst : s.pins.rst = false) :
    t.image = s.image := by
  cases he with
  | reset hrst' ht => exact absurd (hrst.symm.trans hrst') Bool.false_ne_true
  | fault _ _ _ ht => rw [ht, image_raiseFault]
  | run _ _ _ he _ => exact he.fixed.1
  | stays _ _ ht => rw [ht]

end Sys2Proof.Machine

namespace Sys2Proof
open Machine

/-- Settles O23: each of the three things a step out of reset can do keeps the image, and every read with it. -/
theorem coreNeverWritesTheImage : Obligations.CoreNeverWritesTheImage := by
  intro s t hrst hstep
  have himage : t.image = s.image := (stepEffect_of_step hstep).image_of_not_rst hrst
  exact ⟨himage, readImage_of_image himage⟩

end Sys2Proof
end

section
/-! Proofs about decoding what the encoder wrote (30_encoding.md section 3). -/

namespace Sys2Proof

/-- A word with the selectors of a fallback row (R92) meets no implemented arm of the decoder. -/
theorem Decoded.eq_haltUnimpl {w : Word} {i : Instr} (hd : Decoded w i) (hw : isFallbackWord w = true) :
    i = .haltUnimpl w := by
  cases hd with
  | haltUnimpl _ => rfl
  | halt hp | jp hp | se hp | ldI hp | addI hp | rnd hp => simp [isFallbackWord, hp] at hw
  | ldR hp hn | orR hp hn | andR hp hn | xorR hp hn | addR hp hn | sub hp hn | shr hp hn | subn hp hn | shl hp hn =>
    simp [isFallbackWord, hp, hn] at hw

theorem decode_of_isFallbackWord {w : Word} (hw : isFallbackWord w = true) : decode w = .haltUnimpl w :=
  (decoded_decode w).eq_haltUnimpl hw

/-- Format RR lies in primary selector 8, so the secondary selector decides (R93). -/
theorem decode_encodeRR (n : BitVec 4) (x y : Reg) : decode (encodeRR n x y) = decodeAlu (encodeRR n x y) := by
  simp [decode]

/-- Settles O1, by the format of the instruction: the selectors of the encoded word pick the arm of the decoder, whose
fields are the operands again; the word of a fallback has the selectors of no other arm. -/
theorem decodeOfEncodeIsIdentity : Obligations.DecodeOfEncodeIsIdentity := by
  intro i hi
  cases i with
  | halt | jp => simp [encode, decode]
  | se | ldI | addI | rnd => simp [encode, decode]
  | ldR | orR | andR | xorR | addR | sub | shr | subn | shl => simp [encode, decode_encodeRR, decodeAlu]
  | haltUnimpl w => exact decode_of_isFallbackWord hi

end Sys2Proof
end

section
/-! Proofs about the jump (40_control.md R123; 30_encoding.md R86). -/

namespace Sys2Proof.Machine

/-- Writing pc leaves every register, the surroundings and the random input as they were. -/
theorem frame_setPc (s : State) (p : Pc) : Frame [] s (s.setPc p) :=
  ⟨fun r _ => readV_setPc s p r, ⟨rfl, rfl, readImage_setPc s p, rfl, rfl⟩, rfl, rfl⟩

theorem exec_jp (addr : Addr12) (s : State) : exec (.jp addr) s = .next (s.setPc (jumpTarget addr)) := rfl

/-- The zero extension keeps the address, since 12 bits fit in pc. -/
theorem toNat_jumpTarget (addr : Addr12) : (jumpTarget addr).toNat = addr.toNat :=
  BitVec.toNat_setWidth_of_le (by decide)

end Sys2Proof.Machine

namespace Sys2Proof
open Machine

theorem fieldP_eq_of_toNat_div {w : Word} {p : BitVec 4} (h : w.toNat / 4096 = p.toNat) : fieldP w = p :=
  BitVec.eq_of_toNat_eq ((toNat_fieldP w).trans h)

/-- Primary selector 1 is JP (30_encoding.md R90). -/
theorem decode_of_fieldP_jp {w : Word} (hp : fieldP w = 0x1#4) : decode w = .jp (fieldNNN w) := by
  simp [decode, hp]

/-- Settles O30: the next state is `setPc` of the zero-extended address, whose frame is everything else; and primary
selector 1 picks the decoder's JP arm, which reads the address field. -/
theorem jumpSetsPcToAddress : Obligations.JumpSetsPcToAddress := by
  refine ⟨fun addr s => ?_, fun w hw => ?_⟩
  · exact ⟨_, exec_jp addr s, pc_setPc s _, toNat_jumpTarget addr, frame_setPc s _⟩
  · have hp : fieldP w = 0x1#4 := fieldP_eq_of_toNat_div hw
    exact decode_of_fieldP_jp hp

end Sys2Proof
end

section
/-! Proofs about the invariant (10_state.md sections 4 and 6; 20_memory.md section 1). -/

namespace Sys2Proof.Machine

variable {i : Instr} {s t : State}

/-- The invariant speaks of the parameters, the image and STATUS alone. -/
theorem inv_of_fields (h : s.Inv) (hcfg : t.cfg = s.cfg) (himage : t.image = s.image)
    (hstatus : s.status.legal = true → t.status.legal = true) : t.Inv := by
  obtain ⟨hwf, hcanon, hbelow, hlegal⟩ := h
  rw [State.Inv, hcfg, himage]
  exact ⟨hwf, hcanon, hbelow, hstatus hlegal⟩

/-- Only the two halts write STATUS, and each writes a pair of R30. -/
theorem Effect.status_legal (he : Effect i s t) (h : s.status.legal = true) : t.status.legal = true := by
  cases he with
  | halts c _ _ hc ht => rcases hc with rfl | rfl <;> rw [ht] <;> rfl
  | moves _ _ _ ht | writes _ _ _ _ _ _ ht | draws _ _ _ _ ht | flags _ _ _ _ _ _ _ ht => rw [ht]; exact h

theorem Effect.inv (he : Effect i s t) (h : s.Inv) : t.Inv := by
  obtain ⟨himage, hcfg, -⟩ := he.fixed
  exact inv_of_fields h hcfg himage he.status_legal

/-- The image port writes below the capacity only, and a write keeps the canonical form. -/
theorem inv_portWrite (h : s.Inv) : s.portWrite.Inv := by
  unfold State.portWrite
  split
  case isTrue hport =>
    obtain ⟨hwf, hcanon, hbelow, hlegal⟩ := h
    exact ⟨hwf, Memory.wf_write _ _ hcanon, Memory.below_write _ (lt_of_portWrites hport) hbelow, hlegal⟩
  case isFalse => exact h

theorem inv_resetCycle (h : s.Inv) : s.resetCycle.Inv :=
  inv_of_fields (inv_portWrite h) rfl rfl fun _ => rfl

theorem StepEffect.inv (he : StepEffect s t) (h : s.Inv) : t.Inv := by
  cases he with
  | reset _ ht => exact ht ▸ inv_resetCycle h
  | fault _ _ _ ht => exact ht ▸ inv_of_fields h rfl rfl fun _ => rfl
  | run _ _ _ he _ => exact he.inv h
  | stays _ _ ht => exact ht ▸ h

end Sys2Proof.Machine

namespace Sys2Proof
open Machine

/-- Settles O24: R7's parameters, the empty image, and RUNNING without a cause. -/
theorem invHoldsAtReset : Obligations.InvHoldsAtReset := ⟨by decide, Memory.wf_reset, rfl, rfl⟩

/-- Settles O25, by what a step can do: an instruction writes none of the parameters and the image and leaves a legal
STATUS; the reset cycle writes the image through the port; the fault writes its own pair. -/
theorem stepKeepsInv : Obligations.StepKeepsInv := fun _ _ hinv hstep => (stepEffect_of_step hstep).inv hinv

end Sys2Proof
end

section
/-! Proofs about the decoder over all words (30_encoding.md sections 1 to 4). -/

namespace Sys2Proof

variable {w w' : Word} {i : Instr}

/-! ### What the decoder's answer keeps of the word -/

/-- The fields that each arm of the decoder reads are all the fields of its format. -/
theorem Decoded.encode_eq (hd : Decoded w i) : encode i = w := by
  cases hd with
  | halt hp | jp hp =>
    have h := encodeA_fields w
    rw [hp] at h
    exact h
  | se hp | ldI hp | addI hp | rnd hp =>
    have h := encodeRI_fields w
    rw [hp] at h
    exact h
  | ldR hp hn | orR hp hn | andR hp hn | xorR hp hn | addR hp hn | sub hp hn | shr hp hn | subn hp hn | shl hp hn =>
    have h := encodeRR_fields hp
    rw [hn] at h
    exact h
  | haltUnimpl _ => rfl

theorem Decoded.wellFormed (hd : Decoded w i) : i.wellFormed = true := by
  cases hd with
  | haltUnimpl h => exact h
  | _ => rfl

@[simp] theorem encode_decode (w : Word) : encode (decode w) = w := (decoded_decode w).encode_eq

@[simp] theorem wellFormed_decode (w : Word) : (decode w).wellFormed = true := (decoded_decode w).wellFormed

/-- Settles O2, by the arms of the decoder. -/
theorem encodeOfDecodeIsIdentity : Obligations.EncodeOfDecodeIsIdentity :=
  fun w => ⟨encode_decode w, wellFormed_decode w⟩

/-- Settles O3: the two stored bytes make up the encoded word again, and that word decodes to the instruction (O1). -/
theorem storedInstructionIsTwoBytes : Obligations.StoredInstructionIsTwoBytes := by
  intro i rest hi
  have hdecode : decode (encode i) = i := decodeOfEncodeIsIdentity i hi
  refine ⟨rfl, ?_⟩
  calc decodeBytes (encodeBytes i ++ rest)
      = .ok (decode (wordOfBytes (highByte (encode i)) (lowByte (encode i))), rest) := rfl
    _ = .ok (i, rest) := by rw [wordOfBytes_high_low, hdecode]

/-! ### What selects the operation -/

/-- R93: the operation is chosen by the primary selector, and within primary selector 8 by the secondary one. -/
theorem op_decode_congr (hp : fieldP w = fieldP w') (hn : fieldP w = 0x8#4 → fieldN w = fieldN w') :
    (decode w).op = (decode w').op := by
  by_cases h8 : fieldP w = 0x8#4
  · have h8' : fieldP w' = 0x8#4 := hp ▸ h8
    simp only [decode, h8, h8', decodeAlu, hn h8]
    split <;> rfl
  · rw [hp] at h8
    simp only [decode, hp]
    split
    case h_6 h => exact absurd h h8
    all_goals rfl

/-- Settles O6: in primary selector 8 the secondary selector alone chooses. -/
theorem registerFieldsNeverSelectTheOperation : Obligations.RegisterFieldsNeverSelectTheOperation := by
  intro w w' hw hw' hn
  have hp : fieldP w = fieldP w' :=
    (fieldP_eq_of_toNat_div (p := 0x8#4) hw).trans (fieldP_eq_of_toNat_div (p := 0x8#4) hw').symm
  have hn : fieldN w = fieldN w' := BitVec.eq_of_toNat_eq (by rw [toNat_fieldN, toNat_fieldN, hn])
  exact op_decode_congr hp fun _ => hn

/-! ### The rows of the opcode table -/

theorem fieldN_encodeA_setWidth (p n : BitVec 4) : fieldN (encodeA p (n.setWidth 12)) = n := by
  apply BitVec.eq_of_toNat_eq
  rw [toNat_fieldN, toNat_encodeA, BitVec.toNat_setWidth_of_le (by decide)]
  have := n.isLt
  omega

/-- The two masks of the table: the primary selector, which is then not 8, or both selectors. The pattern of each row
is itself a word of the row's operation. -/
theorem opcodeRows_shape : ∀ r ∈ opcodeRows, (decode r.pattern).op = r.op ∧
    (r.mask = 0xF000#16 ∧ fieldP r.pattern ≠ 0x8#4 ∨ r.mask = 0xF00F#16) := by decide

/-- A word that a row covers has the selectors of the row's pattern. -/
theorem op_decode_of_covers {r : OpcodeRow} (hr : r ∈ opcodeRows) (hw : r.covers w = true) :
    (decode w).op = r.op := by
  obtain ⟨hpattern, hmask⟩ := opcodeRows_shape r hr
  have hw : w &&& r.mask = r.pattern := by simpa [OpcodeRow.covers] using hw
  rw [← hpattern]
  rcases hmask with ⟨hmask, h8⟩ | hmask
  · rw [hmask, and_maskP] at hw
    have hp : fieldP w = fieldP r.pattern := by rw [← hw, fieldP_encodeA]
    exact op_decode_congr hp fun h => absurd (hp.symm.trans h) h8
  · rw [hmask, and_maskPN] at hw
    have hp : fieldP w = fieldP r.pattern := by rw [← hw, fieldP_encodeA]
    have hn : fieldN w = fieldN r.pattern := by rw [← hw, fieldN_encodeA_setWidth]
    exact op_decode_congr hp fun _ => hn

/-- The family Row over all instructions. -/
theorem exists_row (i : Instr) : Laws.Row.Statement i := by
  cases i with
  | halt low => exact Laws.Row.halt low
  | jp addr => exact Laws.Row.jp addr
  | se x kk => exact Laws.Row.se x kk
  | ldI x kk => exact Laws.Row.ldI x kk
  | addI x kk => exact Laws.Row.addI x kk
  | ldR x y => exact Laws.Row.ldR x y
  | orR x y => exact Laws.Row.orR x y
  | andR x y => exact Laws.Row.andR x y
  | xorR x y => exact Laws.Row.xorR x y
  | addR x y => exact Laws.Row.addR x y
  | sub x y => exact Laws.Row.sub x y
  | shr x y => exact Laws.Row.shr x y
  | subn x y => exact Laws.Row.subn x y
  | shl x y => exact Laws.Row.shl x y
  | rnd x kk => exact Laws.Row.rnd x kk
  | haltUnimpl w => exact Laws.Row.haltUnimpl w

/-- Settles O4: the row of the word's own instruction covers it, and a row that covers a word fixes its selectors. -/
theorem opcodeRowsDecideTheOperation : Obligations.OpcodeRowsDecideTheOperation := by
  intro w
  obtain ⟨r, hr, -, hcovers⟩ := exists_row (decode w) (wellFormed_decode w)
  rw [encode_decode] at hcovers
  exact ⟨⟨r, hr, hcovers⟩, fun _ hr hw => op_decode_of_covers hr hw⟩

/-! ### The halting words -/

theorem Decoded.op_eq_halt_iff (hd : Decoded w i) : i.op = .halt ↔ fieldP w = 0x0#4 := by
  cases hd with
  | halt hp | jp hp | se hp | ldI hp | addI hp | rnd hp | ldR hp | orR hp | andR hp | xorR hp | addR hp | sub hp
  | shr hp | subn hp | shl hp => simp [Instr.op, hp]
  | haltUnimpl h =>
    have hp : fieldP w ≠ 0x0#4 := fun hp => by simp [isFallbackWord, hp] at h
    simp [Instr.op, hp]

theorem Decoded.op_eq_haltUnimpl_iff (hd : Decoded w i) : i.op = .haltUnimpl ↔ isFallbackWord w = true := by
  constructor
  · intro h
    cases hd with
    | haltUnimpl hw => exact hw
    | _ => cases h
  · intro hw
    rw [hd.eq_haltUnimpl hw]
    rfl

/-- Being one of some selectors, on numbers. -/
theorem mem_iff_toNat_mem {n : Nat} (a : BitVec n) (l : List (BitVec n)) :
    a ∈ l ↔ a.toNat ∈ l.map BitVec.toNat :=
  (List.mem_map_of_injective BitVec.toNat_injective).symm

/-- R92 on the word as a number. -/
theorem isFallbackWord_iff_toNat (w : Word) : isFallbackWord w = true ↔
    w.toNat / 4096 ∈ [0x2, 0x4, 0x5, 0x9, 0xA, 0xB, 0xD, 0xE, 0xF] ∨
      (w.toNat / 4096 = 0x8 ∧ w.toNat % 16 ∈ [0x8, 0x9, 0xA, 0xB, 0xC, 0xD, 0xF]) := by
  simp only [isFallbackWord, Bool.or_eq_true, Bool.and_eq_true, List.contains_iff_mem, beq_iff_eq,
    mem_iff_toNat_mem, ← BitVec.toNat_inj, toNat_fieldP, toNat_fieldN]
  rfl

/-- Settles O5: HALT is the arm of primary selector 0, and the fallback takes the words of R92 and no other. -/
theorem haltAndFallbackWords : Obligations.HaltAndFallbackWords := by
  intro w
  have hd := decoded_decode w
  refine ⟨?_, hd.op_eq_haltUnimpl_iff.trans (isFallbackWord_iff_toNat w)⟩
  rw [hd.op_eq_halt_iff, ← BitVec.toNat_inj, toNat_fieldP]
  exact Nat.div_eq_zero_iff_lt (by decide)

/-! ### The arguments record -/

/-- R85's table: an arm fills the arguments of its format, each from its own field, and leaves the others zero. -/
theorem Decoded.args_eq (hd : Decoded w i) :
    (i.op ∈ [.halt, .haltUnimpl] → i.args = {}) ∧
    (i.op = .jp → i.args = { addr := fieldNNN w }) ∧
    (i.op ∈ [.se, .ldI, .addI, .rnd] → i.args = { x := fieldX w, imm := fieldKK w }) ∧
    (i.op ∈ [.ldR, .orR, .andR, .xorR, .addR, .sub, .shr, .subn, .shl] →
      i.args = { x := fieldX w, y := fieldY w }) := by
  cases hd <;> simp [Instr.op, Instr.args]

/-- Settles O7: the fields as numbers, in each row of the table. -/
theorem argumentsComeFromTheirFields : Obligations.ArgumentsComeFromTheirFields := by
  intro w
  obtain ⟨hhalts, hjp, himm, hreg⟩ := (decoded_decode w).args_eq
  refine ⟨hhalts, fun h => ?_, fun h => ?_, fun h => ?_⟩
  · rw [hjp h]
    exact ⟨toNat_fieldNNN w, rfl, rfl, rfl⟩
  · rw [himm h]
    exact ⟨rfl, toNat_fieldX w, rfl, toNat_fieldKK w⟩
  · rw [hreg h]
    exact ⟨rfl, toNat_fieldX w, toNat_fieldY w, rfl⟩

/-- Settles O8, by running the decoder on the seven words. -/
theorem sampleWordsDecode : Obligations.SampleWordsDecode := by
  unfold Obligations.SampleWordsDecode
  decide

end Sys2Proof
end

section
/-! Proofs about the assembler (30_encoding.md section 5). -/

namespace Sys2Proof

/-! ### The formats of R82 as numbers -/

theorem encodeA_eq_ofNat (p : BitVec 4) (nnn : BitVec 12) :
    encodeA p nnn = .ofNat 16 (p.toNat * 4096 + nnn.toNat) := by
  rw [← toNat_encodeA, BitVec.ofNat_toNat, BitVec.setWidth_eq]

theorem encodeRI_eq_ofNat (p : BitVec 4) (x : Reg) (kk : Imm) :
    encodeRI p x kk = .ofNat 16 (p.toNat * 4096 + x.toNat * 256 + kk.toNat) := by
  rw [← toNat_encodeRI, BitVec.ofNat_toNat, BitVec.setWidth_eq]

theorem encodeRR_eq_ofNat (n : BitVec 4) (x y : Reg) :
    encodeRR n x y = .ofNat 16 (0x8000 + x.toNat * 256 + y.toNat * 16 + n.toNat) := by
  rw [← toNat_encodeRR, BitVec.ofNat_toNat, BitVec.setWidth_eq]

namespace Machine

variable (labels : List (String × Nat))

/-! ### Operands in range -/

/-- A form with a byte operand, `f` being its instruction of format RI. -/
theorem encode_asmByte (p : BitVec 4) (x : Reg) (f : Imm → Instr) (hf : ∀ kk, encode (f kk) = encodeRI p x kk)
    (n : Nat) : ((asmByte n).map f).map encode =
      if n < 256 then some (.ofNat 16 (p.toNat * 4096 + x.toNat * 256 + n)) else none := by
  unfold asmByte
  split
  case isTrue hn => simp [hf, encodeRI_eq_ofNat, Nat.mod_eq_of_lt hn]
  case isFalse => rfl

theorem assemble_jp_number (n : Nat) : assemble labels (.jp (.number n)) =
    if n < 4096 then some (.ofNat 16 (0x1000 + n)) else none := by
  simp only [assemble, assembleInstr, asmAddr]
  split
  case isTrue hn => simp [encode, encodeA_eq_ofNat, Nat.mod_eq_of_lt hn]
  case isFalse => rfl

/-- A label stands for its number. -/
theorem asmAddr_label (name : String) :
    asmAddr labels (.label name) = (labels.lookup name).bind fun n => asmAddr labels (.number n) := by
  simp only [asmAddr]
  split <;> rename_i h <;> rw [h] <;> rfl

/-! ### The assembled word decodes to the line's instruction -/

/-- `DW` gives the instruction of its own word; every other line gives one that is no fallback. -/
theorem wellFormed_of_assembleInstr {l : AsmLine} {i : Instr} (h : assembleInstr labels l = some i) :
    i.wellFormed = true := by
  cases l with
  | dw w =>
    cases h
    exact wellFormed_decode w
  | jp | se | ldI | addI | rnd =>
    obtain ⟨_, -, rfl⟩ := Option.map_eq_some_iff.mp h
    rfl
  | halt | nop | ldR | orR | andR | xorR | addR | sub | subn | shr | shl =>
    cases h
    rfl

theorem decode_of_assembleInstr {l : AsmLine} {i : Instr} (h : assembleInstr labels l = some i) :
    ∃ v, assemble labels l = some v ∧ decode v = i :=
  ⟨encode i, by rw [assemble, h, Option.map_some],
    decodeOfEncodeIsIdentity i (wellFormed_of_assembleInstr labels h)⟩

end Machine

open Machine

/-- Settles O9, form by form: each line is encoded in its format of R82, whose word is the sum of its weighted fields. -/
theorem assembledLinesDecodeBack : Obligations.AssembledLinesDecodeBack := by
  intro labels x y n name w
  dsimp only
  have regForm (y : Reg) (sel : BitVec 4) : some (encodeRR sel x y) =
      some (.ofNat 16 (0x8000 + x.toNat * 256 + y.toNat * 16 + sel.toNat)) := congrArg some (encodeRR_eq_ofNat sel x y)
  refine ⟨⟨rfl, rfl, ?_⟩, ⟨assemble_jp_number labels n, fun h => ?_, fun h => ?_⟩, ⟨?_, ?_, ?_, ?_⟩,
    ⟨regForm y 0x0, regForm y 0x1, regForm y 0x2, regForm y 0x3, regForm y 0x4, regForm y 0x5, regForm y 0x7⟩,
    ⟨regForm 0 0x6, regForm y 0x6, regForm 0 0xE, regForm y 0xE⟩, fun l i h => decode_of_assembleInstr labels h⟩
  · exact congrArg some (encode_decode w)
  · simp only [assemble, assembleInstr, asmAddr_label, h, Option.bind_some]
  · simp only [assemble, assembleInstr, asmAddr_label, h, Option.bind_none, Option.map_none]
  · exact encode_asmByte 0x3 x (.se x) (fun _ => rfl) n
  · exact encode_asmByte 0x6 x (.ldI x) (fun _ => rfl) n
  · exact encode_asmByte 0x7 x (.addI x) (fun _ => rfl) n
  · exact encode_asmByte 0xC x (.rnd x) (fun _ => rfl) n

end Sys2Proof
end

section
/-! What each instruction answers, and the frame of each way an instruction ends. -/

namespace Sys2Proof.Machine

section
variable (low : BitVec 12) (w : Word) (x y : Reg) (kk : Imm) (s : State)

/-! ### The meaning of each instruction -/

theorem exec_halt : exec (.halt low) s = .next (s.halt .haltExplicit) := rfl
theorem exec_haltUnimpl : exec (.haltUnimpl w) s = .next (s.halt .haltUnimplemented) := rfl
theorem exec_se_of_eq (h : s.readV x = kk) : exec (.se x kk) s = .next (s.advance 4) :=
  congrArg Host.Outcome.next (if_pos h)
theorem exec_se_of_ne (h : s.readV x ≠ kk) : exec (.se x kk) s = .next (s.advance 2) :=
  congrArg Host.Outcome.next (if_neg h)
theorem exec_ldI : exec (.ldI x kk) s = .next (s.commit x kk) := rfl
theorem exec_ldR : exec (.ldR x y) s = .next (s.commit x (s.readV y)) := rfl
theorem exec_orR : exec (.orR x y) s = .next (s.commit x (s.readV x ||| s.readV y)) := rfl
theorem exec_andR : exec (.andR x y) s = .next (s.commit x (s.readV x &&& s.readV y)) := rfl
theorem exec_xorR : exec (.xorR x y) s = .next (s.commit x (s.readV x ^^^ s.readV y)) := rfl
theorem exec_addI : exec (.addI x kk) s =
    .next (s.commitFlagged x (addResult (s.readV x) kk (s.readV s.vf)) (addFlag (s.readV x) kk)) := rfl
theorem exec_addR : exec (.addR x y) s =
    .next (s.commitFlagged x (addResult (s.readV x) (s.readV y) (s.readV s.vf)) (addFlag (s.readV x) (s.readV y))) :=
  rfl
theorem exec_sub : exec (.sub x y) s =
    .next (s.commitFlagged x (subResult (s.readV x) (s.readV y)) (subFlag (s.readV x) (s.readV y))) := rfl
theorem exec_shr : exec (.shr x y) s =
    .next (s.commitFlagged x (shrResult (s.readV x)) (shrFlag (s.readV x))) := rfl
theorem exec_subn : exec (.subn x y) s =
    .next (s.commitFlagged x (subnResult (s.readV x) (s.readV y)) (subnFlag (s.readV x) (s.readV y))) := rfl
theorem exec_shl : exec (.shl x y) s =
    .next (s.commitFlagged x (shlResult (s.readV x)) (shlFlag (s.readV x))) := rfl
theorem exec_rnd : exec (.rnd x kk) s = .next (s.drawRnd.commit x (s.rndData &&& kk)) := rfl

end

/-! ### How an instruction ends: its registers, its pc and its frame -/

section
variable (s : State) {x : Reg} (res flag : Byte)

@[simp] theorem readV_commit_same : (s.commit x res).readV x = res := by simp [readV_commit]

theorem readV_commitFlagged_vf : (s.commitFlagged x res flag).readV s.vf = flag := by
  rw [readV_commitFlagged, if_pos rfl]

/-- V[x] holds the result unless it is VF, which is written last (decision D4). -/
theorem readV_commitFlagged_same (hx : x ≠ s.vf) : (s.commitFlagged x res flag).readV x = res := by
  rw [readV_commitFlagged, if_neg hx, if_pos rfl]

/-- pc arithmetic is modulo 2^16 (10_state.md R28). -/
theorem toNat_pc_advance (n : Pc) : (s.advance n).pc.toNat = (s.pc.toNat + n.toNat) % 65536 :=
  BitVec.toNat_add s.pc n

theorem toNat_pc_commit : (s.commit x res).pc.toNat = (s.pc.toNat + 2) % 65536 := toNat_pc_advance s 2

theorem toNat_pc_commitFlagged : (s.commitFlagged x res flag).pc.toNat = (s.pc.toNat + 2) % 65536 :=
  toNat_pc_advance s 2

theorem onlyRegisters_commit : OnlyRegisters [x] s (s.commit x res) := by
  intro r hr
  rw [readV_commit, if_neg (by simpa using hr)]

theorem onlyRegisters_commitFlagged : OnlyRegisters [x, s.vf] s (s.commitFlagged x res flag) := by
  intro r hr
  obtain ⟨hx, hvf⟩ : r ≠ x ∧ r ≠ s.vf := by simpa using hr
  rw [readV_commitFlagged, if_neg hvf, if_neg hx]

theorem frame_commit : Frame [x] s (s.commit x res) :=
  ⟨onlyRegisters_commit s res, ⟨rfl, rfl, readImage_commit s x res, rfl, rfl⟩, rfl, rfl⟩

theorem frame_commitFlagged : Frame [x, s.vf] s (s.commitFlagged x res flag) :=
  ⟨onlyRegisters_commitFlagged s res flag, ⟨rfl, rfl, readImage_commitFlagged s x res flag, rfl, rfl⟩, rfl, rfl⟩

end

/-! ### The flags and the shifts, in the forms the manual gives beside its pseudocode -/

section
variable (a b : Byte)

/-- NOT borrow, on numbers (42_alu.md R165). -/
theorem subFlag_eq : subFlag a b = if a.toNat < b.toNat then 0x00 else 0x01 := rfl

/-- Borrow, on numbers (42_alu.md R167). -/
theorem subnFlag_eq : subnFlag a b = if b.toNat < a.toNat then 0x01 else 0x00 := rfl

theorem toNat_shrResult : (shrResult a).toNat = a.toNat / 2 := by
  simp [shrResult, Nat.shiftRight_eq_div_pow]

theorem toNat_shrFlag : (shrFlag a).toNat = a.toNat % 2 := by
  simp [shrFlag, Nat.and_one_is_mod]

theorem toNat_shlResult : (shlResult a).toNat = 2 * a.toNat % 256 := by
  simp [shlResult, Nat.shiftLeft_eq, Nat.mul_comm]

/-- Bit 7 of a byte is set exactly from 0x80 on. -/
theorem shlFlag_eq : shlFlag a = if 0x80 ≤ a.toNat then 0x80 else 0x00 := by
  have hbit : a.getLsbD 7 = decide (0x80 ≤ a.toNat) := BitVec.msb_eq_decide a
  have hmask : a &&& 0x80 = if a.getLsbD 7 then 0x80 else 0x00 := BitVec.and_twoPow a 7
  rw [shlFlag, hmask, hbit]
  simp

end

end Sys2Proof.Machine
end

section
/-! Proofs about the instructions that move data and control (40_control.md, 41_immediate.md, 42_alu.md). -/

namespace Sys2Proof
open Machine

/-- Settles O27: the halt writes STATUS. -/
theorem haltWritesStatusOnly : Obligations.HaltWritesStatusOnly := fun low s => exec_halt low s

/-- Settles O28: the fallback writes STATUS. -/
theorem fallbackWritesStatusOnly : Obligations.FallbackWritesStatusOnly := fun w s => exec_haltUnimpl w s

/-- Settles O29: each halt answers `State.halt` with its own cause. -/
theorem haltsDifferOnlyInCause : Obligations.HaltsDifferOnlyInCause := by
  intro low w s t u ht hu
  rw [exec_halt] at ht
  rw [exec_haltUnimpl] at hu
  cases ht
  cases hu
  exact ⟨rfl, rfl, rfl⟩

/-- Settles O31, by whether V[x] equals the immediate. -/
theorem skipAdvancesByFourOrTwo : Obligations.SkipAdvancesByFourOrTwo := by
  intro x kk s
  by_cases h : s.readV x = kk
  · exact ⟨_, exec_se_of_eq x kk s h, fun _ => toNat_pc_advance s 4, fun hne => absurd h hne, frame_setPc s _⟩
  · exact ⟨_, exec_se_of_ne x kk s h, fun heq => absurd heq h, fun _ => toNat_pc_advance s 2, frame_setPc s _⟩

/-- Settles O32: one register written with the immediate. -/
theorem loadImmediateWritesOneRegister : Obligations.LoadImmediateWritesOneRegister := fun x kk s =>
  ⟨_, exec_ldI x kk s, readV_commit_same s kk, toNat_pc_commit s kk, frame_commit s kk⟩

/-- Settles O34: one register written with the other's value. -/
theorem copyWritesOneRegister : Obligations.CopyWritesOneRegister := fun x y s =>
  ⟨_, exec_ldR x y s, readV_commit_same s _, toNat_pc_commit s _, frame_commit s _⟩

/-- Settles O35: writing a register's own value back leaves the registers as they are. -/
theorem copyToItselfChangesOnlyPc : Obligations.CopyToItselfChangesOnlyPc := by
  intro x s
  have hv : s.writeV x (s.readV x) = s := by simp [State.writeV, State.readV]
  rw [exec_ldR, State.commit, hv]
  rfl

/-- Settles O36: the bitwise operations of `BitVec`, each written to one register. -/
theorem logicWritesOneRegister : Obligations.LogicWritesOneRegister := fun x y s =>
  ⟨⟨_, exec_orR x y s, fun k => by rw [readV_commit_same, BitVec.getLsbD_or],
      toNat_pc_commit s _, frame_commit s _⟩,
    ⟨_, exec_andR x y s, fun k => by rw [readV_commit_same, BitVec.getLsbD_and],
      toNat_pc_commit s _, frame_commit s _⟩,
    ⟨_, exec_xorR x y s, fun k => by rw [readV_commit_same, BitVec.getLsbD_xor],
      toNat_pc_commit s _, frame_commit s _⟩⟩

end Sys2Proof
end

section
/-! Proofs about the instructions that write a result and the flag (41_immediate.md, 42_alu.md): each ends in
`State.commitFlagged`, and what is left is the arithmetic of the result and of the flag. -/

namespace Sys2Proof.Machine

/-- What an instruction that ends in `State.commitFlagged` leaves, given its result as a number. -/
theorem commitFlagged_spec (s : State) (x : Reg) {res flag flag' : Byte} {n : Nat} (hres : res.toNat = n)
    (hflag : flag = flag') : let t := s.commitFlagged x res flag
    (x ≠ s.vf → (t.readV x).toNat = n) ∧ t.readV s.vf = flag' ∧
      t.pc.toNat = (s.pc.toNat + 2) % 65536 ∧ Frame [x, s.vf] s t :=
  ⟨fun hx => by rw [readV_commitFlagged_same s res flag hx, hres], hflag ▸ readV_commitFlagged_vf s res flag,
    toNat_pc_commitFlagged s res flag, frame_commitFlagged s res flag⟩

end Sys2Proof.Machine

namespace Sys2Proof
open Machine

/-- Settles O33, by the add law on V[x], the immediate and VF. -/
theorem addImmediateFollowsTheAddLaw : Obligations.AddImmediateFollowsTheAddLaw := fun x kk s =>
  ⟨_, exec_addI x kk s, commitFlagged_spec s x (toNat_addResult ..) (addFlag_eq ..)⟩

/-- Settles O37, by the add law on V[x], V[y] and VF. -/
theorem addRegisterFollowsTheAddLaw : Obligations.AddRegisterFollowsTheAddLaw := fun x y s =>
  ⟨_, exec_addR x y s, commitFlagged_spec s x (toNat_addResult ..) (addFlag_eq ..)⟩

/-- Settles O38: the difference, and the NOT of its borrow. -/
theorem subWritesDifferenceAndNotBorrow : Obligations.SubWritesDifferenceAndNotBorrow := fun x y s =>
  ⟨_, exec_sub x y s, commitFlagged_spec s x (toNat_subResult ..) (subFlag_eq ..)⟩

/-- Settles O40: the reverse difference, and its borrow. -/
theorem subnWritesReverseDifferenceAndBorrow : Obligations.SubnWritesReverseDifferenceAndBorrow := fun x y s =>
  ⟨_, exec_subn x y s, commitFlagged_spec s x (toNat_subnResult ..) (subnFlag_eq ..)⟩

/-- Settles O39: the half, and the bit shifted out; the meaning does not name Y. -/
theorem shiftRightHalvesAndKeepsLowBit : Obligations.ShiftRightHalvesAndKeepsLowBit := by
  intro x y s
  obtain ⟨hx, hvf, hpc, hframe⟩ := commitFlagged_spec s x (toNat_shrResult (s.readV x)) rfl
  refine ⟨_, exec_shr x y s, hx, ?_, hpc, hframe, fun y' => exec_shr x y' s⟩
  rw [hvf, toNat_shrFlag]

/-- Settles O41: the double, and the old bit 7 in place; the meaning does not name Y. -/
theorem shiftLeftDoublesAndKeepsRawHighBit : Obligations.ShiftLeftDoublesAndKeepsRawHighBit := by
  intro x y s
  obtain ⟨hx, hvf, hpc, hframe⟩ := commitFlagged_spec s x (toNat_shlResult (s.readV x)) (shlFlag_eq (s.readV x))
  exact ⟨_, exec_shl x y s, hx, hvf, hpc, hframe, fun y' => exec_shl x y' s⟩

/-- Settles O42: SHL leaves its flag in VF, and the ADD that follows takes all of VF as its carry-in. -/
theorem shiftFlagIsCarryOfNextAdd : Obligations.ShiftFlagIsCarryOfNextAdd := by
  intro x y z z' kk s t hz ht
  have ht : s.commitFlagged x (shlResult (s.readV x)) (shlFlag (s.readV x)) = t := by
    rw [exec_shl] at ht
    exact Host.Outcome.next.inj ht
  have hvf : t.vf = s.vf := by rw [← ht]; rfl
  have hcarry : (t.readV t.vf).toNat = if 0x80 ≤ (s.readV x).toNat then 0x80 else 0 := by
    rw [hvf, ← ht, readV_commitFlagged_vf, shlFlag_eq]
    split <;> rfl
  have hzt : z ≠ t.vf := hvf ▸ hz
  refine ⟨⟨_, exec_addI z kk t, ?_⟩, ⟨_, exec_addR z z' t, ?_⟩⟩
  · rw [readV_commitFlagged_same _ _ _ hzt, toNat_addResult, hcarry]
  · rw [readV_commitFlagged_same _ _ _ hzt, toNat_addResult, hcarry]

end Sys2Proof
end

section
/-! Proofs about one step (30_encoding.md section 6; 20_memory.md sections 2 and 3; 60_exceptions.md section 1). -/

namespace Sys2Proof.Machine

variable {s : State}

/-! ### The step, case by case -/

theorem step_of_rst (hrst : s.pins.rst = true) : step s = .next s.resetCycle := by simp [step, hrst]

theorem step_of_stopped (hrst : s.pins.rst = false) (hrun : s.status.state ≠ .running) : step s = .next s := by
  simp [step, hrst, hrun]

theorem step_of_admitted (hrst : s.pins.rst = false) (hrun : s.status.state = .running)
    (hpc : s.pc.toNat + 1 < s.cfg.imageSize) : step s = exec (decode s.fetchWord) s := by
  simp [step, hrst, hrun, State.fetchAdmitted, hpc]

theorem step_of_out_of_bounds (hrst : s.pins.rst = false) (hrun : s.status.state = .running)
    (hpc : s.cfg.imageSize ≤ s.pc.toNat + 1) : step s = .next (s.raiseFault .fetchOutOfBounds) := by
  simp [step, hrst, hrun, State.fetchAdmitted, Nat.not_lt.mpr hpc]

/-- A change of the state that a step does not look at passes through the step, if each thing that a step may do
passes it on. -/
theorem step_onNext (f : State → State) (hpins : (f s).pins = s.pins) (hstatus : (f s).status = s.status)
    (hpc : (f s).pc = s.pc) (hcfg : (f s).cfg = s.cfg)
    (hreset : s.pins.rst = true → (f s).resetCycle = f s.resetCycle)
    (hfault : (f s).raiseFault .fetchOutOfBounds = f (s.raiseFault .fetchOutOfBounds))
    (hexec : s.pins.rst = false → s.status.state = .running → s.pc.toNat + 1 < s.cfg.imageSize →
      exec (decode (f s).fetchWord) (f s) = onNext f (exec (decode s.fetchWord) s)) :
    step (f s) = onNext f (step s) := by
  by_cases hrst : s.pins.rst = true
  · rw [step_of_rst hrst, step_of_rst (hpins ▸ hrst), hreset hrst]
    rfl
  have hrst : s.pins.rst = false := Bool.eq_false_of_not_eq_true hrst
  by_cases hrun : s.status.state = .running
  · by_cases hbound : s.pc.toNat + 1 < s.cfg.imageSize
    · rw [step_of_admitted hrst hrun hbound,
        step_of_admitted (hpins ▸ hrst) (hstatus ▸ hrun) (hpc ▸ hcfg ▸ hbound), hexec hrst hrun hbound]
    · have hbound := Nat.le_of_not_lt hbound
      rw [step_of_out_of_bounds hrst hrun hbound,
        step_of_out_of_bounds (hpins ▸ hrst) (hstatus ▸ hrun) (hpc ▸ hcfg ▸ hbound), hfault]
      rfl
  · rw [step_of_stopped hrst hrun, step_of_stopped (hpins ▸ hrst) (hstatus ▸ hrun)]
    rfl

end Sys2Proof.Machine

namespace Sys2Proof
open Machine

/-- Settles O10: the two bytes at pc are the fetched word. -/
theorem stepRunsTheDecodedInstruction : Obligations.StepRunsTheDecodedInstruction := by
  intro s i hrst hrun hpc hbytes
  rw [decodeBytes_cons] at hbytes
  cases hbytes
  exact step_of_admitted hrst hrun hpc

/-- Settles O11: the two halves of `wordOfBytes`. -/
theorem fetchedWordIsBigEndian : Obligations.FetchedWordIsBigEndian :=
  fun _ => ⟨highByte_wordOfBytes _ _, lowByte_wordOfBytes _ _⟩

/-- Settles O12: past the bound the step raises the fault, which writes STATUS. -/
theorem fetchOutOfBoundsFaults : Obligations.FetchOutOfBoundsFaults :=
  fun _ hrst hrun hpc => step_of_out_of_bounds hrst hrun hpc

/-- Settles O13, by what a step can do. -/
theorem everyStepAnswersNextState : Obligations.EveryStepAnswersNextState := fun s =>
  let ⟨t, ht, _⟩ := step_effect s
  ⟨t, ht⟩

/-- Settles O26: the layout is a concatenation of the two codes. -/
theorem statusCodes : Obligations.StatusCodes := by
  refine ⟨fun t => ⟨?_, ?_⟩, rfl, rfl, rfl, rfl, rfl, rfl, rfl⟩
  · exact BitVec.extractLsb'_append_eq_right
  · exact BitVec.extractLsb'_append_eq_left

end Sys2Proof
end

section
/-! Proofs about reset and the image port (70_reset_and_hazards.md sections 1 and 2; 10_state.md section 6). -/

namespace Sys2Proof.Machine

variable {s : State} {a : Nat}

/-! ### The image port -/

theorem portWrites_iff (s : State) : s.portWrites = true ↔
    s.pins.rst = true ∧ s.pins.imgWe = true ∧ s.pins.imgAddr.toNat < s.cfg.imageSize := by
  simp [State.portWrites, and_assoc]

theorem portWrite_of_writes (h : s.portWrites = true) :
    s.portWrite = s.writeImage s.pins.imgAddr.toNat s.pins.imgWdata := if_pos h

theorem portWrite_of_not_writes (h : ¬s.portWrites = true) : s.portWrite = s := if_neg h

/-- A byte that the port does not name, or a write that it does not honour: the image reads as before. -/
theorem readImage_portWrite (h : s.pins.imgWe = false ∨ s.cfg.imageSize ≤ s.pins.imgAddr.toNat ∨
    a ≠ s.pins.imgAddr.toNat) : s.portWrite.readImage a = s.readImage a := by
  by_cases hport : s.portWrites = true
  · obtain ⟨-, hwe, hlt⟩ := (portWrites_iff s).mp hport
    have ha : a ≠ s.pins.imgAddr.toNat := by
      rcases h with hoff | hbeyond | ha
      · rw [hwe] at hoff; cases hoff
      · exact absurd hlt (Nat.not_lt.mpr hbeyond)
      · exact ha
    rw [portWrite_of_writes hport]
    exact Memory.read_write_ne s.image _ ha
  · rw [portWrite_of_not_writes hport]

/-- An honoured write, read back. -/
theorem readImage_portWrite_of_writes (hwf : Memory.wf s.image = true) (h : s.portWrites = true) :
    s.portWrite.readImage a = if a = s.pins.imgAddr.toNat then s.pins.imgWdata else s.readImage a := by
  rw [portWrite_of_writes h]
  exact Memory.read_write _ _ _ _ hwf

/-! ### The cycle in reset -/

@[simp] theorem cfg_resetCycle (s : State) : s.resetCycle.cfg = s.cfg := cfg_portWrite s
@[simp] theorem pins_resetCycle (s : State) : s.resetCycle.pins = s.pins := pins_portWrite s
@[simp] theorem pc_resetCycle (s : State) : s.resetCycle.pc = s.cfg.resetPc :=
  congrArg Config.resetPc (cfg_portWrite s)

theorem noDraw_resetCycle (s : State) : NoDraw s s.resetCycle := ⟨rndOffered_portWrite s, draws_portWrite s⟩

/-- `RESET_PC` is 0x0000 in every legal configuration (R261). -/
theorem pc_resetCycle_of_wf (hwf : s.cfg.wf = true) : s.resetCycle.pc = 0x0000#16 := by
  obtain ⟨-, -, -, hpc⟩ := (Config.wf_iff _).mp hwf
  rw [pc_resetCycle, hpc]

end Sys2Proof.Machine

namespace Sys2Proof
open Machine

/-- Settles O19: R35's values, and the empty image reads 0x00. -/
theorem resetStateValues : Obligations.ResetStateValues :=
  ⟨rfl, rfl, readV_assertReset State.reset, fun _ => rfl, rfl⟩

/-- Settles O20: in reset the step is the reset cycle, which serves the image port and loads the reset values. -/
theorem resetFromAnyState : Obligations.ResetFromAnyState := fun s hrst =>
  ⟨s.resetCycle, step_of_rst hrst, pc_resetCycle s, pc_resetCycle_of_wf, readV_assertReset s.portWrite, rfl,
    noDraw_resetCycle s, cfg_resetCycle s, pins_resetCycle s, fun _ ha => readImage_portWrite ha⟩

/-- Settles O21: after the reset cycle the block is RUNNING at address 0, where a legal `IMAGE_SIZE` admits the fetch. -/
theorem firstStepAfterResetRunsWordAtZero : Obligations.FirstStepAfterResetRunsWordAtZero := by
  intro s t hrst hwf hstep
  rw [step_of_rst hrst] at hstep
  cases hstep
  obtain ⟨hsize, -⟩ := (Config.wf_iff _).mp hwf
  have hpc : s.resetCycle.pc = 0x0000#16 := pc_resetCycle_of_wf hwf
  have hbound : s.resetCycle.pc.toNat + 1 < s.resetCycle.cfg.imageSize := by
    rw [hpc, cfg_resetCycle]
    exact hsize
  have hword : s.resetCycle.fetchWord = wordOfBytes (s.resetCycle.readImage 0) (s.resetCycle.readImage 1) := by
    rw [State.fetchWord, hpc]
    rfl
  rw [← hword]
  exact step_of_admitted rfl rfl hbound

/-- Settles O22: in reset by the port's read after write, out of reset because no step reaches the port (O23). -/
theorem imagePortWritesOnlyInReset : Obligations.ImagePortWritesOnlyInReset := by
  intro s t hinv hstep a
  obtain ⟨-, hwf, -, -⟩ := hinv
  have himage (hrst : s.pins.rst = true) : t = s.resetCycle := by
    rw [step_of_rst hrst] at hstep
    exact (Host.Outcome.next.inj hstep).symm
  refine ⟨fun hrst hwe hlt => ?_, fun hignored => ?_⟩
  · rw [himage hrst]
    exact readImage_portWrite_of_writes hwf ((portWrites_iff s).mpr ⟨hrst, hwe, hlt⟩)
  · by_cases hrst : s.pins.rst = true
    · rw [himage hrst]
      refine readImage_portWrite ?_
      rcases hignored with hout | hoff | hbeyond
      · rw [hrst] at hout; cases hout
      · exact .inl hoff
      · exact .inr (.inl hbeyond)
    · exact (coreNeverWritesTheImage s t (Bool.eq_false_of_not_eq_true hrst) hstep).2 a

end Sys2Proof
end

section
/-! Proofs of the rules over all instructions (10_state.md sections 1 to 3; 20_memory.md section 1). -/

namespace Sys2Proof.Machine

variable {i : Instr} {s t : State}

/-! ### What every shape of a meaning leaves as it was -/

/-- A shape writes the registers that `Instr.writes` names and no other. -/
theorem Effect.onlyRegisters (he : Effect i s t) : OnlyRegisters (i.writes s.vf) s t := by
  cases he with
  | halts c _ _ _ ht => exact ht ▸ fun r _ => readV_halt s c r
  | moves p _ _ ht => exact ht ▸ fun r _ => readV_setPc s p r
  | writes x res _ hflag hdest _ ht =>
    have hw : i.writes s.vf = [x] := by simp [Instr.writes, hdest, hflag]
    exact hw ▸ ht ▸ onlyRegisters_commit s res
  | draws x res hop hdest ht =>
    have hw : i.writes s.vf = [x] := by simp [Instr.writes, hdest, hop, Op.writesFlag]
    exact hw ▸ ht ▸ onlyRegisters_commit s.drawRnd res
  | flags x res flag _ hflag hdest _ ht =>
    have hw : i.writes s.vf = [x, s.vf] := by simp [Instr.writes, hdest, hflag]
    exact hw ▸ ht ▸ onlyRegisters_commitFlagged s res flag

theorem Effect.status_eq (he : Effect i s t) (hop : i.op.halts = false) : t.status = s.status := by
  cases he with
  | halts _ hhalts => rw [hop] at hhalts; cases hhalts
  | moves _ _ _ ht | writes _ _ _ _ _ _ ht | draws _ _ _ _ ht | flags _ _ _ _ _ _ _ ht => rw [ht]; rfl

theorem Effect.noDraw (he : Effect i s t) (hop : i.op ≠ .rnd) : NoDraw s t := by
  cases he with
  | draws _ _ hrnd => exact absurd hrnd hop
  | halts _ _ _ _ ht | moves _ _ _ ht | writes _ _ _ _ _ _ ht | flags _ _ _ _ _ _ _ ht =>
    rw [ht]
    exact ⟨rfl, rfl⟩

/-- An instruction with a destination goes on to the next word. -/
theorem Effect.pc_of_dest {x : Reg} (he : Effect i s t) (hdest : i.dest = some x) : t.pc = s.pc + 2 := by
  cases he with
  | halts _ _ hnone | moves _ _ hnone => rw [hnone] at hdest; cases hdest
  | writes _ _ _ _ _ _ ht | draws _ _ _ _ ht | flags _ _ _ _ _ _ _ ht => rw [ht]; rfl

/-- The operations that end a run have the shape of a halt. -/
theorem Effect.eq_halt (he : Effect i s t) (hop : i.op.halts = true) : ∃ c, t = s.halt c := by
  cases he with
  | halts c _ _ _ ht => exact ⟨c, ht⟩
  | draws _ _ hrnd => rw [hrnd] at hop; cases hop
  | moves _ hrun | writes _ _ hrun | flags _ _ _ hrun => rw [hrun] at hop; cases hop

end Sys2Proof.Machine

namespace Sys2Proof

/-! ### The operations, sorted -/

theorem Op.halts_iff_mem (o : Op) : o.halts = true ↔ o ∈ [Op.halt, .haltUnimpl] := by
  cases o <;> simp [Op.halts]

theorem Op.writesFlag_iff_mem (o : Op) :
    o.writesFlag = true ↔ o ∈ [Op.addI, .addR, .sub, .shr, .subn, .shl] := by
  cases o <;> simp [Op.writesFlag]

/-- Every operation but the two halts, JP and SE has a destination (10_state.md R21). -/
theorem Instr.exists_dest {i : Instr} (h : i.op ∉ [Op.halt, .haltUnimpl, .jp, .se]) : ∃ x, i.dest = some x := by
  cases i with
  | halt | haltUnimpl | jp | se => simp [Instr.op] at h
  | ldI | addI | rnd | ldR | orR | andR | xorR | addR | sub | shr | subn | shl => exact ⟨_, rfl⟩

end Sys2Proof

namespace Sys2Proof.Machine

variable {i : Instr} {s t : State}

/-! ### The value of the flag -/

/-- The bit that SHR shifts out is 0x00 or 0x01. -/
theorem shrFlag_eq (a : Byte) : shrFlag a = if a.toNat % 2 = 0 then 0x00 else 0x01 := by
  apply BitVec.eq_of_toNat_eq
  rw [toNat_shrFlag]
  split
  case isTrue h => exact h
  case isFalse h => exact Nat.mod_two_ne_zero.mp h

/-- A flag that is one of two of R23's values is one of R23's values. -/
theorem ite_mem_flags (c : Prop) [Decidable c] {a b : Byte} (ha : a ∈ [0x00#8, 0x01#8, 0x80#8])
    (hb : b ∈ [0x00#8, 0x01#8, 0x80#8]) : (if c then a else b) ∈ [0x00#8, 0x01#8, 0x80#8] := by
  split
  · exact ha
  · exact hb

theorem addFlag_mem (a b : Byte) : addFlag a b ∈ [0x00#8, 0x01#8, 0x80#8] :=
  ite_mem_flags _ (by decide) (by decide)
theorem subFlag_mem (a b : Byte) : subFlag a b ∈ [0x00#8, 0x01#8, 0x80#8] :=
  ite_mem_flags _ (by decide) (by decide)
theorem subnFlag_mem (a b : Byte) : subnFlag a b ∈ [0x00#8, 0x01#8, 0x80#8] :=
  ite_mem_flags _ (by decide) (by decide)
theorem shrFlag_mem (a : Byte) : shrFlag a ∈ [0x00#8, 0x01#8, 0x80#8] :=
  shrFlag_eq a ▸ ite_mem_flags _ (by decide) (by decide)
theorem shlFlag_mem (a : Byte) : shlFlag a ∈ [0x00#8, 0x01#8, 0x80#8] :=
  shlFlag_eq a ▸ ite_mem_flags _ (by decide) (by decide)

theorem readV_vf_mem_of_commitFlagged (x : Reg) (res : Byte) {flag : Byte} (hflag : flag ∈ [0x00#8, 0x01#8, 0x80#8])
    (ht : (.next (s.commitFlagged x res flag) : Result) = .next t) : t.readV s.vf ∈ [0x00#8, 0x01#8, 0x80#8] := by
  cases ht
  rwa [readV_commitFlagged_vf]

/-- R23: the flag that an instruction leaves in VF is 0x00, 0x01 or 0x80. -/
theorem flag_mem_of_exec (hop : i.op.writesFlag = true) (h : exec i s = .next t) :
    t.readV s.vf ∈ [0x00#8, 0x01#8, 0x80#8] := by
  cases i with
  | halt | haltUnimpl | jp | se | ldI | ldR | orR | andR | xorR | rnd => cases hop
  | addI | addR => exact readV_vf_mem_of_commitFlagged _ _ (addFlag_mem ..) h
  | sub => exact readV_vf_mem_of_commitFlagged _ _ (subFlag_mem ..) h
  | shr => exact readV_vf_mem_of_commitFlagged _ _ (shrFlag_mem _) h
  | subn => exact readV_vf_mem_of_commitFlagged _ _ (subnFlag_mem ..) h
  | shl => exact readV_vf_mem_of_commitFlagged _ _ (shlFlag_mem _) h

/-! ### A change that no instruction looks at -/

/-- SE reads V[x] and pc, so a change that keeps both passes through it. -/
theorem exec_se_onNext (f : State → State) (x : Reg) (kk : Imm) (hx : (f s).readV x = s.readV x)
    (hpc : ∀ n, (f s).advance n = f (s.advance n)) : exec (.se x kk) (f s) = onNext f (exec (.se x kk) s) := by
  by_cases h : s.readV x = kk
  · rw [exec_se_of_eq x kk s h, exec_se_of_eq x kk (f s) (hx.trans h), hpc]
    rfl
  · rw [exec_se_of_ne x kk s h, exec_se_of_ne x kk (f s) (hx ▸ h), hpc]
    rfl

end Sys2Proof.Machine

namespace Sys2Proof
open Machine

/-- Settles O47, by the shapes of the meanings. -/
theorem instructionsWriteOnlyTheirRegisters : Obligations.InstructionsWriteOnlyTheirRegisters := by
  intro i s
  obtain ⟨t, ht, he⟩ := exec_effect i s
  obtain ⟨himage, hcfg, hpins⟩ := he.fixed
  refine ⟨t, ht, he.onlyRegisters, himage, readImage_of_image himage, hcfg, hpins, fun hhalt hfallback => ?_,
    he.noDraw⟩
  have hop : i.op.halts = false := by simp [← Bool.not_eq_true, Op.halts_iff_mem, hhalt, hfallback]
  exact he.status_eq hop

/-- Settles O48: the six flags have R23's values, and VF is among the registers of no other instruction but as its
destination. -/
theorem flagChangesOnlyInSixInstructions : Obligations.FlagChangesOnlyInSixInstructions := by
  intro i s t h
  refine ⟨fun hop => flag_mem_of_exec ((Op.writesFlag_iff_mem _).mpr hop) h, fun hop hdest => ?_⟩
  rw [← Op.writesFlag_iff_mem] at hop
  have hvf : s.vf ∉ i.writes s.vf := by simp [Instr.writes, hop, hdest]
  exact (effect_of_exec h).onlyRegisters s.vf hvf

/-- Settles O49: the halts keep pc, JP and SE set it, and every other instruction has a destination and goes on. -/
theorem programCounterTable : Obligations.ProgramCounterTable := by
  refine ⟨fun i s t h => ⟨fun hop => ?_, ?_, ?_, fun hop => ?_⟩, fun s hrst hrun hbound => ?_⟩
  · obtain ⟨c, rfl⟩ := (effect_of_exec h).eq_halt ((Op.halts_iff_mem _).mpr hop)
    exact pc_halt s c
  · rintro addr rfl
    rw [exec_jp] at h
    cases h
    exact toNat_jumpTarget addr
  · rintro x kk rfl
    by_cases hx : s.readV x = kk
    · rw [exec_se_of_eq x kk s hx] at h
      cases h
      rw [if_pos hx, toNat_pc_advance]
      rfl
    · rw [exec_se_of_ne x kk s hx] at h
      cases h
      rw [if_neg hx, toNat_pc_advance]
      rfl
  · obtain ⟨x, hdest⟩ := Instr.exists_dest hop
    rw [(effect_of_exec h).pc_of_dest hdest]
    exact BitVec.toNat_add s.pc 2
  · exact ⟨_, step_of_out_of_bounds hrst hrun hbound, pc_raiseFault s _⟩

/-- Settles O50: the meanings read the registers, pc, `FLAG_REG` and the random input, which the change keeps. -/
theorem noInstructionReadsTheImage : Obligations.NoInstructionReadsTheImage := by
  intro i s size start m p change
  cases i with
  | se x kk => exact exec_se_onNext change x kk rfl fun _ => rfl
  | halt | haltUnimpl | jp | ldI | addI | ldR | orR | andR | xorR | addR | sub | shr | subn | shl | rnd => rfl

end Sys2Proof
end

section
/-! Proofs about RND and the random input (43_random.md; 10_state.md section 7). -/

namespace Sys2Proof.Machine

variable {i : Instr} {s t : State}

/-- RND takes one draw. -/
theorem Effect.draw (he : Effect i s t) (hop : i.op = .rnd) :
    t.draws = s.draws + 1 ∧ t.rndOffered = s.rndOffered.tail := by
  cases he with
  | draws _ _ _ _ ht => rw [ht]; exact ⟨rfl, rfl⟩
  | halts _ hhalts => rw [hop] at hhalts; cases hhalts
  | moves _ _ hnone =>
    obtain ⟨x, hdest⟩ := Instr.exists_dest (i := i) (by simp [hop])
    rw [hnone] at hdest; cases hdest
  | writes _ _ _ _ _ hrnd | flags _ _ _ _ _ _ hrnd => exact absurd hop hrnd

/-- `rnd_take` is 1 in exactly the steps that execute RND (assumption log 12). -/
theorem rndTake_iff (s : State) : s.rndTake = true ↔ s.pins.rst = false ∧ s.status.state = .running ∧
    s.fetchAdmitted = true ∧ (decode s.fetchWord).op = .rnd := by
  simp [State.rndTake, State.enabled, and_assoc]

theorem StepEffect.draw (he : StepEffect s t) (htake : s.rndTake = true) :
    t.draws = s.draws + 1 ∧ t.rndOffered = s.rndOffered.tail := by
  obtain ⟨hrst, hrun, hf, hop⟩ := (rndTake_iff s).mp htake
  cases he with
  | run _ _ _ he => exact he.draw hop
  | reset h => rw [hrst] at h; cases h
  | fault _ _ h => rw [hf] at h; cases h
  | stays _ h => exact absurd hrun h

theorem StepEffect.noDraw (he : StepEffect s t) (htake : s.rndTake ≠ true) : NoDraw s t := by
  cases he with
  | run hrst hrun hf he => exact he.noDraw fun hop => htake ((rndTake_iff s).mpr ⟨hrst, hrun, hf, hop⟩)
  | reset _ ht => exact ht ▸ noDraw_resetCycle s
  | fault _ _ _ ht | stays _ _ ht => exact ht ▸ ⟨rfl, rfl⟩

/-- The state with another random input: the bytes on offer and the count of draws. -/
def State.withRnd (s : State) (bs : List Byte) (n : Nat) : State := { s with rndOffered := bs, draws := n }

theorem resetCycle_withRnd (s : State) (bs : List Byte) (n : Nat) :
    (s.withRnd bs n).resetCycle = s.resetCycle.withRnd bs n := by
  have hport : (s.withRnd bs n).portWrite = s.portWrite.withRnd bs n := by
    by_cases h : s.portWrites = true
    · rw [portWrite_of_writes h]
      exact portWrite_of_writes (s := s.withRnd bs n) h
    · rw [portWrite_of_not_writes h]
      exact portWrite_of_not_writes (s := s.withRnd bs n) h
  rw [State.resetCycle, hport]
  rfl

/-- RND alone reads the random input. -/
theorem exec_withRnd (s : State) (bs : List Byte) (n : Nat) (hop : i.op ≠ .rnd) :
    exec i (s.withRnd bs n) = onNext (State.withRnd · bs n) (exec i s) := by
  cases i with
  | rnd => exact absurd rfl hop
  | se x kk => exact exec_se_onNext (State.withRnd · bs n) x kk rfl fun _ => rfl
  | halt | haltUnimpl | jp | ldI | addI | ldR | orR | andR | xorR | addR | sub | shr | subn | shl => rfl

end Sys2Proof.Machine

namespace Sys2Proof
open Machine

/-- Settles O43: one draw, then one register written. -/
theorem randomWritesMaskedDraw : Obligations.RandomWritesMaskedDraw := by
  intro x kk s
  refine ⟨_, exec_rnd x kk s, readV_commit_same s.drawRnd _, ?_, rfl, rfl, toNat_pc_commit s.drawRnd _,
    onlyRegisters_commit s.drawRnd _, rfl, rfl, readImage_commit s.drawRnd x _, rfl, rfl⟩
  rw [readV_commit_same, BitVec.and_assoc, BitVec.and_not_self]
  exact BitVec.and_zero

/-- Settles O44: the host offers the byte, and the mask 0xFF keeps all of it. -/
theorem anyByteMayBeDrawn : Obligations.AnyByteMayBeDrawn := by
  intro x r s
  refine ⟨[r], _, exec_rnd x 0xFF _, ?_⟩
  rw [readV_commit_same]
  exact BitVec.and_allOnes

/-- Settles O45, by `rnd_take`: a step that executes RND has the effect of a draw, and no other step has one. -/
theorem oneDrawPerExecutedRnd : Obligations.OneDrawPerExecutedRnd := by
  intro s t hstep
  have he := stepEffect_of_step hstep
  by_cases htake : s.rndTake = true
  · rw [if_pos htake, if_pos htake]
    exact he.draw htake
  · rw [if_neg htake, if_neg htake]
    obtain ⟨hoffered, hdraws⟩ := he.noDraw htake
    exact ⟨hdraws, hoffered⟩

/-- Settles O46: nothing that a step may do looks at the random input, unless it is RND. -/
theorem onlyRndReadsTheRandomInput : Obligations.OnlyRndReadsTheRandomInput := by
  intro s bs n htake
  refine step_onNext (State.withRnd · bs n) rfl rfl rfl rfl (fun _ => resetCycle_withRnd s bs n) rfl ?_
  intro hrst hrun hbound
  have hop : (decode s.fetchWord).op ≠ .rnd := fun hop =>
    Bool.false_ne_true (htake.symm.trans ((rndTake_iff s).mpr ⟨hrst, hrun, decide_eq_true hbound, hop⟩))
  exact exec_withRnd s bs n hop

end Sys2Proof
end

section
/-! Proofs about runs: how they end, what never ends, and what the next step does not see (30_encoding.md section 6;
40_control.md; 60_exceptions.md). -/

namespace Sys2Proof.Machine

variable {i : Instr} {s t : State}

/-! ### Where a run stands still -/

/-- A state that a step answers with itself is answered by every run. -/
theorem runSteps_of_fixed (h : step s = .next s) (k : Nat) : runSteps k s = .next s := by
  induction k with
  | zero => rfl
  | succ k ih => rw [runSteps_succ k h, ih]

theorem runSteps_two {u : State} (h : step s = .next t) (h' : step t = .next u) : runSteps 2 s = .next u := by
  rw [runSteps_succ 1 h, runSteps_succ 0 h', runSteps_zero]

theorem runSteps_of_stopped (hrst : s.pins.rst = false) (hrun : s.status.state ≠ .running) (k : Nat) :
    runSteps k s = .next s := runSteps_of_fixed (step_of_stopped hrst hrun) k

/-! ### How a step stops the machine -/

/-- The halts, and no other instruction, leave RUNNING (60_exceptions.md R220). -/
theorem Effect.stopped_iff (he : Effect i s t) (hrun : s.status.state = .running) :
    t.status.state ≠ .running ↔ i.op.halts = true := by
  cases hop : i.op.halts with
  | true =>
    obtain ⟨c, rfl⟩ := he.eq_halt hop
    simp
  | false => simp [he.status_eq hop, hrun]

/-- Nothing in a step drives the inputs. -/
theorem StepEffect.pins_eq (he : StepEffect s t) : t.pins = s.pins := by
  cases he with
  | reset _ ht => rw [ht, pins_resetCycle]
  | fault _ _ _ ht => rw [ht, pins_raiseFault]
  | run _ _ _ he _ =>
    obtain ⟨-, -, hpins⟩ := he.fixed
    exact hpins
  | stays _ _ ht => rw [ht]

/-! ### What the image has to do with a step -/

/-- The state with another image. -/
def State.withImage (s : State) (m : Memory) : State := { s with image := m }

/-- O50 for the image alone. -/
theorem exec_withImage (i : Instr) (s : State) (m : Memory) :
    exec i (s.withImage m) = onNext (State.withImage · m) (exec i s) := by
  obtain ⟨t, ht, he⟩ := exec_effect i s
  obtain ⟨-, hcfg, hpins⟩ := he.fixed
  have hchange := noInstructionReadsTheImage i s s.cfg.imageSize s.cfg.resetPc m s.pins
  rw [ht] at hchange ⊢
  calc exec i (s.withImage m)
      = .next { t with
          cfg := { t.cfg with imageSize := s.cfg.imageSize, resetPc := s.cfg.resetPc }
          image := m
          pins := s.pins } := hchange
    _ = .next (t.withImage m) := by rw [← hcfg, ← hpins]; rfl

/-- Out of reset a step sees of the image only the two bytes that it fetches. -/
theorem step_withImage {m : Memory} (hrst : s.pins.rst = false)
    (hhi : Memory.read m s.pc.toNat = s.readImage s.pc.toNat)
    (hlo : Memory.read m (s.pc.toNat + 1) = s.readImage (s.pc.toNat + 1)) :
    step (s.withImage m) = onNext (State.withImage · m) (step s) := by
  have hword : (s.withImage m).fetchWord = s.fetchWord := congrArg₂ wordOfBytes hhi hlo
  refine step_onNext (State.withImage · m) rfl rfl rfl rfl (fun h => ?_) rfl fun _ _ _ => ?_
  · rw [hrst] at h; cases h
  · rw [hword]
    exact exec_withImage _ s m

/-- After a taken SE the fetch does not touch the two bytes passed over, also where pc wraps (decision D9). -/
theorem fetch_after_skip {pc a : Nat} (ha : a = (pc + 4) % 65536 ∨ a = (pc + 4) % 65536 + 1) :
    a ≠ pc + 2 ∧ a ≠ pc + 3 := by
  omega

end Sys2Proof.Machine

namespace Sys2Proof
open Machine

/-- Settles O15: a stopped state is a fixed point of the step. -/
theorem stoppedStaysStopped : Obligations.StoppedStaysStopped := fun k _ hrst hrun => runSteps_of_stopped hrst hrun k

/-- Settles O14: a step out of reset faults at the bound of the fetch or runs an instruction, of which the halts alone
leave RUNNING; and a stopped state stays as it is (O15). -/
theorem runEndsExactlyAtHaltOrFault : Obligations.RunEndsExactlyAtHaltOrFault := by
  intro s t hrst hrun hstep
  have he := stepEffect_of_step hstep
  refine ⟨?_, fun hstopped k u hu => ?_⟩
  · cases he with
    | reset h => rw [hrst] at h; cases h
    | stays _ h => exact absurd hrun h
    | fault _ _ hf ht =>
      have hbound : s.cfg.imageSize ≤ s.pc.toNat + 1 := Nat.le_of_not_lt (of_decide_eq_false hf)
      have hfaulted : t.status.state ≠ .running := by simp [ht]
      exact iff_of_true hfaulted (.inl hbound)
    | run _ _ hf he _ =>
      have hbound : ¬s.cfg.imageSize ≤ s.pc.toNat + 1 := Nat.not_le.mpr (of_decide_eq_true hf)
      rw [he.stopped_iff hrun, Op.halts_iff_mem]
      simp [hbound]
  · have hrst : t.pins.rst = false := he.pins_eq ▸ hrst
    rw [runSteps_of_stopped hrst hstopped k] at hu
    cases hu
    exact ⟨rfl, rfl, rfl, rfl⟩

/-- Settles O16: the jump writes to pc what it holds, so its state is a fixed point of the step. -/
theorem jumpToSelfNeverEnds : Obligations.JumpToSelfNeverEnds := by
  intro k s addr hrst hrun hbound hjp haddr
  have htarget : jumpTarget addr = s.pc := BitVec.eq_of_toNat_eq ((toNat_jumpTarget addr).trans haddr)
  have hfixed : step s = .next s := by
    rw [step_of_admitted hrst hrun hbound, hjp, exec_jp, htarget]
    rfl
  exact runSteps_of_fixed hfixed k

/-- Settles O17: the first step sets pc, the second meets the bound of the fetch there. -/
theorem jumpOutOfImageFaultsAtNextFetch : Obligations.JumpOutOfImageFaultsAtNextFetch := by
  intro s addr hrst hrun hbound hjp htarget
  have hjump : step s = .next (s.setPc (jumpTarget addr)) := by
    rw [step_of_admitted hrst hrun hbound, hjp, exec_jp]
  have hbeyond : s.cfg.imageSize ≤ (jumpTarget addr).toNat + 1 := by rwa [toNat_jumpTarget]
  have hfault := step_of_out_of_bounds (s := s.setPc (jumpTarget addr)) hrst hrun hbeyond
  exact ⟨_, runSteps_two hjump hfault, rfl, toNat_jumpTarget addr, rfl⟩

/-- Settles O18: each of the two steps sees of the image only the word it fetches, and neither word holds a byte that
was changed. -/
theorem skippedWordIsNeverRead : Obligations.SkippedWordIsNeverRead := by
  intro s m x kk hrst hrun hbound hse hx hm
  have hskip : step s = .next (s.advance 4) := by
    rw [step_of_admitted hrst hrun hbound, hse, exec_se_of_eq x kk s hx]
  have hskip' : step (s.withImage m) = .next ((s.advance 4).withImage m) := by
    rw [step_withImage hrst (hm _ (by omega) (by omega)) (hm _ (by omega) (by omega)), hskip]
    rfl
  have hread (a : Nat) (ha : a = (s.pc.toNat + 4) % 65536 ∨ a = (s.pc.toNat + 4) % 65536 + 1) :
      Memory.read m a = s.readImage a := by
    obtain ⟨h2, h3⟩ := fetch_after_skip ha
    exact hm a h2 h3
  have hpc : (s.advance 4).pc.toNat = (s.pc.toNat + 4) % 65536 := toNat_pc_advance s 4
  obtain ⟨u, hu, -⟩ := step_effect (s.advance 4)
  have hu' : step ((s.advance 4).withImage m) = .next (u.withImage m) := by
    rw [step_withImage (s := s.advance 4) hrst (hread _ (.inl hpc)) (hread _ (.inr (by rw [hpc]))), hu]
    rfl
  rw [runSteps_two hskip hu]
  exact runSteps_two hskip' hu'

end Sys2Proof
end
